-- ==== Sys2Proof/Word.lean ====
section
/-! DEFINITION. The word types of the CORE (00_scope.md R8, R9, R10): bytes, 16-bit words, 12-bit addresses,
register indices. Every value is unsigned. -/

namespace Sys2Proof

/-- A byte: a general register, a timer, a memory cell (R8 `VWIDTH`, `TIMERWIDTH`). -/
abbrev Byte := BitVec 8

/-- A 16-bit word: PC, I, a stack entry, an instruction word (R8 `PCWIDTH`, `IWIDTH`, `STACKWIDTH`; R90). -/
abbrev Word := BitVec 16

/-- The 12-bit address operand nnn (30_encoding.md R91). -/
abbrev Addr := BitVec 12

/-- A register index 0x0..0xF: the 4-bit fields x and y, so no index is out of range (10_state.md R30). -/
abbrev Reg := Fin 16

/-- VF, register 0xF: the flag output, otherwise an ordinary register (10_state.md R31). -/
abbrev VF : Reg := 15

end Sys2Proof
end

