-- ==== Sys2Proof/Config.lean ====
section
/-! DEFINITION. What one machine fixes (00_scope.md R8): the fixed parameters, the type of the settings a machine
chooses (`Params`), and the one free value of the spec, the random byte (10_state.md R45). -/

namespace Sys2Proof

/-- `MEMSIZE`: addresses 0x000..0xFFF (R8, 20_memory.md R60). -/
abbrev Config.memSize : Nat := 0x1000

/-- `PROGRAM_START`, the first address of the program region and the reset vector (R8, R61, R332). -/
abbrev Config.programStart : Nat := 0x200

/-- `FONT_BASE` (R8, 20_memory.md R62). -/
abbrev Config.fontBase : Nat := 0x000

/-- `FONT_ENTRY`: bytes in one digit sprite (R8, 90_conflicts.md C1). -/
abbrev Config.fontEntry : Nat := 5

/-- The bytes of the whole font: 16 digits of `fontEntry` bytes (R8, R62). -/
abbrev Config.fontSize : Nat := 80

/-- The random byte of Cxkk: a FREE VALUE under no law, the n-th draw that no host supplied (R45, R131, D19).
It has no body, so nothing can be proved of what it is. Safe (log 2). -/
opaque Config.freeRand : Nat → Byte

/-- The settings a machine chooses, the two `parameter` rows of R8: they never change while it runs. -/
structure Params where
  /-- `PROGRAM_END`, exclusive end of the program region (R61, D7). -/
  programEnd : Nat
  /-- `FONT_DATA`, the 80 sprite bytes RESET copies to `fontBase` (R62, D17). -/
  fontData : Vector Byte Config.fontSize
  deriving DecidableEq, Repr

end Sys2Proof
end

