-- ==== Sys2Proof/Syntax.lean ====
section
/-! DEFINITION. The instruction set: one constructor per row of spec/opcode_table.json, in the table's order
(00_scope.md R2, 30_encoding.md R94). A register operand is a `Reg`, kk a `Byte`, nnn an `Addr`, the sprite height n
a number 0..15 (30_encoding.md R91, R93). Every value of every operand is legal, so every term of `Instr` is well formed. -/

namespace Sys2Proof

inductive Instr where
  /-- 00E0 `CLS` (R140) -/
  | cls
  /-- 00EE `RET` (R160) -/
  | ret
  /-- 1nnn `JP addr` (R161) -/
  | jp (nnn : Addr)
  /-- 2nnn `CALL addr` (R162) -/
  | call (nnn : Addr)
  /-- 3xkk `SE Vx, kk` (R163) -/
  | seImm (x : Reg) (kk : Byte)
  /-- 4xkk `SNE Vx, kk` (R164) -/
  | sneImm (x : Reg) (kk : Byte)
  /-- 5xy0 `SE Vx, Vy` (R165) -/
  | seReg (x y : Reg)
  /-- 6xkk `LD Vx, kk` (R190) -/
  | ldImm (x : Reg) (kk : Byte)
  /-- 7xkk `ADD Vx, kk` (R191) -/
  | addImm (x : Reg) (kk : Byte)
  /-- 8xy0 `LD Vx, Vy` (R192) -/
  | ldReg (x y : Reg)
  /-- 8xy1 `OR Vx, Vy` (R193) -/
  | orReg (x y : Reg)
  /-- 8xy2 `AND Vx, Vy` (R194) -/
  | andReg (x y : Reg)
  /-- 8xy3 `XOR Vx, Vy` (R195) -/
  | xorReg (x y : Reg)
  /-- 8xy4 `ADD Vx, Vy` (R196) -/
  | addReg (x y : Reg)
  /-- 8xy5 `SUB Vx, Vy` (R197) -/
  | sub (x y : Reg)
  /-- 8xy6 `SHR Vx` (R198); y is part of the encoding and is not read (R98) -/
  | shr (x y : Reg)
  /-- 8xy7 `SUBN Vx, Vy` (R199) -/
  | subn (x y : Reg)
  /-- 8xyE `SHL Vx` (R200); y is part of the encoding and is not read (R98) -/
  | shl (x y : Reg)
  /-- 9xy0 `SNE Vx, Vy` (R166) -/
  | sneReg (x y : Reg)
  /-- Annn `LD I, addr` (R230) -/
  | ldI (nnn : Addr)
  /-- Bnnn `JP V0, addr` (R167) -/
  | jpV0 (nnn : Addr)
  /-- Cxkk `RND Vx, kk` (R201) -/
  | rnd (x : Reg) (kk : Byte)
  /-- Dxyn `DRW Vx, Vy, n` (R141) -/
  | drw (x y : Reg) (n : Fin 16)
  /-- Ex9E `SKP Vx` (R260) -/
  | skp (x : Reg)
  /-- ExA1 `SKNP Vx` (R261) -/
  | sknp (x : Reg)
  /-- Fx07 `LD Vx, DT` (R262) -/
  | ldVxDt (x : Reg)
  /-- Fx0A `LD Vx, K` (R263) -/
  | ldVxK (x : Reg)
  /-- Fx15 `LD DT, Vx` (R264) -/
  | ldDtVx (x : Reg)
  /-- Fx18 `LD ST, Vx` (R265) -/
  | ldStVx (x : Reg)
  /-- Fx1E `ADD I, Vx` (R231) -/
  | addI (x : Reg)
  /-- Fx29 `LD F, Vx` (R232) -/
  | ldF (x : Reg)
  /-- Fx33 `LD B, Vx` (R233) -/
  | ldB (x : Reg)
  /-- Fx55 `LD [I], Vx` (R234) -/
  | ldMemVx (x : Reg)
  /-- Fx65 `LD Vx, [I]` (R235) -/
  | ldVxMem (x : Reg)
  deriving DecidableEq, Repr

end Sys2Proof
end

