-- ==== Sys2Proof/WellFormed.lean ====
section
/-! DEFINITION. What can be ill formed on this machine: a word that no row of the opcode table matches
(30_encoding.md R96), and a setting of PROGRAM_END outside its bounds (00_scope.md R8). A term of `Instr` cannot: its
operand types hold exactly the values the 4-, 8- and 12-bit fields hold (30_encoding.md R93). -/

namespace Sys2Proof

/-- A row of spec/opcode_table.json: a word belongs to it when its bits under `mask` are `value`. -/
structure OpRow where
  mask  : Word
  value : Word
  deriving DecidableEq, Repr

/-- The word is an encoding of the row's instruction. -/
def OpRow.admits (r : OpRow) (w : Word) : Bool := w &&& r.mask == r.value

/-- The row of the opcode table each instruction stands for: its "mask" and "match" (R92, R94). -/
def Instr.row : Instr → OpRow
  | .cls         => ⟨0xFFFF, 0x00E0⟩
  | .ret         => ⟨0xFFFF, 0x00EE⟩
  | .jp _        => ⟨0xF000, 0x1000⟩
  | .call _      => ⟨0xF000, 0x2000⟩
  | .seImm _ _   => ⟨0xF000, 0x3000⟩
  | .sneImm _ _  => ⟨0xF000, 0x4000⟩
  | .seReg _ _   => ⟨0xF00F, 0x5000⟩
  | .ldImm _ _   => ⟨0xF000, 0x6000⟩
  | .addImm _ _  => ⟨0xF000, 0x7000⟩
  | .ldReg _ _   => ⟨0xF00F, 0x8000⟩
  | .orReg _ _   => ⟨0xF00F, 0x8001⟩
  | .andReg _ _  => ⟨0xF00F, 0x8002⟩
  | .xorReg _ _  => ⟨0xF00F, 0x8003⟩
  | .addReg _ _  => ⟨0xF00F, 0x8004⟩
  | .sub _ _     => ⟨0xF00F, 0x8005⟩
  | .shr _ _     => ⟨0xF00F, 0x8006⟩
  | .subn _ _    => ⟨0xF00F, 0x8007⟩
  | .shl _ _     => ⟨0xF00F, 0x800E⟩
  | .sneReg _ _  => ⟨0xF00F, 0x9000⟩
  | .ldI _       => ⟨0xF000, 0xA000⟩
  | .jpV0 _      => ⟨0xF000, 0xB000⟩
  | .rnd _ _     => ⟨0xF000, 0xC000⟩
  | .drw _ _ _   => ⟨0xF000, 0xD000⟩
  | .skp _       => ⟨0xF0FF, 0xE09E⟩
  | .sknp _      => ⟨0xF0FF, 0xE0A1⟩
  | .ldVxDt _    => ⟨0xF0FF, 0xF007⟩
  | .ldVxK _     => ⟨0xF0FF, 0xF00A⟩
  | .ldDtVx _    => ⟨0xF0FF, 0xF015⟩
  | .ldStVx _    => ⟨0xF0FF, 0xF018⟩
  | .addI _      => ⟨0xF0FF, 0xF01E⟩
  | .ldF _       => ⟨0xF0FF, 0xF029⟩
  | .ldB _       => ⟨0xF0FF, 0xF033⟩
  | .ldMemVx _   => ⟨0xF0FF, 0xF055⟩
  | .ldVxMem _   => ⟨0xF0FF, 0xF065⟩

/-- The rows of the table whose family has one row for all its words, or two single words (families 0 to 4, 6, 7, A to D). -/
def wholeFamilyRows : List OpRow :=
  [⟨0xFFFF, 0x00E0⟩, ⟨0xFFFF, 0x00EE⟩, ⟨0xF000, 0x1000⟩, ⟨0xF000, 0x2000⟩, ⟨0xF000, 0x3000⟩, ⟨0xF000, 0x4000⟩,
   ⟨0xF000, 0x6000⟩, ⟨0xF000, 0x7000⟩, ⟨0xF000, 0xA000⟩, ⟨0xF000, 0xB000⟩, ⟨0xF000, 0xC000⟩, ⟨0xF000, 0xD000⟩]

/-- The rows that n selects (families 5, 8 and 9). -/
def nSelectedRows : List OpRow :=
  [⟨0xF00F, 0x5000⟩, ⟨0xF00F, 0x8000⟩, ⟨0xF00F, 0x8001⟩, ⟨0xF00F, 0x8002⟩, ⟨0xF00F, 0x8003⟩, ⟨0xF00F, 0x8004⟩,
   ⟨0xF00F, 0x8005⟩, ⟨0xF00F, 0x8006⟩, ⟨0xF00F, 0x8007⟩, ⟨0xF00F, 0x800E⟩, ⟨0xF00F, 0x9000⟩]

/-- The rows that kk selects (families E and F). -/
def kkSelectedRows : List OpRow :=
  [⟨0xF0FF, 0xE09E⟩, ⟨0xF0FF, 0xE0A1⟩, ⟨0xF0FF, 0xF007⟩, ⟨0xF0FF, 0xF00A⟩, ⟨0xF0FF, 0xF015⟩, ⟨0xF0FF, 0xF018⟩,
   ⟨0xF0FF, 0xF01E⟩, ⟨0xF0FF, 0xF029⟩, ⟨0xF0FF, 0xF033⟩, ⟨0xF0FF, 0xF055⟩, ⟨0xF0FF, 0xF065⟩]

/-- The 34 rows of spec/opcode_table.json. -/
def opcodeRows : List OpRow := wholeFamilyRows ++ nSelectedRows ++ kkSelectedRows

/-- A word is well formed when a row of the table admits it; every other word is illegal (R96). -/
def wordLegal (w : Word) : Bool := opcodeRows.any (·.admits w)

/-- The bounds of PROGRAM_END: 0x202 <= PROGRAM_END <= 0x1000, so that one instruction fits (R8, D7). -/
abbrev Params.wf (p : Params) : Prop := 0x202 ≤ p.programEnd ∧ p.programEnd ≤ 0x1000

end Sys2Proof
end

