-- ==== Sys2Proof/Machine/Defaults.lean ====
section
/-! DEFINITION. The default values of the two settings of a machine (00_scope.md R8). -/

namespace Sys2Proof.Machine

/-- PROGRAM_END by default: the program region is 0x200..0xFFF (R61, D7). DESIGN CHOICE of the spec, unsafe (log 3). -/
def defaultProgramEnd : Nat := 0x1000

/-- FONT_DATA by default: the table of R62, digits 0 to F, five bytes each. PRESUMED: the spec itself marks these bytes
as general knowledge (G1). Unsafe (log 4). -/
def defaultFontData : Vector Byte Config.fontSize :=
  #v[0xF0, 0x90, 0x90, 0x90, 0xF0,  0x20, 0x60, 0x20, 0x20, 0x70,
     0xF0, 0x10, 0xF0, 0x80, 0xF0,  0xF0, 0x10, 0xF0, 0x10, 0xF0,
     0x90, 0x90, 0xF0, 0x10, 0x10,  0xF0, 0x80, 0xF0, 0x10, 0xF0,
     0xF0, 0x80, 0xF0, 0x90, 0xF0,  0xF0, 0x10, 0x20, 0x40, 0x40,
     0xF0, 0x90, 0xF0, 0x90, 0xF0,  0xF0, 0x90, 0xF0, 0x10, 0xF0,
     0xF0, 0x90, 0xF0, 0x90, 0x90,  0xE0, 0x90, 0xE0, 0x90, 0xE0,
     0xF0, 0x80, 0x80, 0x80, 0xF0,  0xE0, 0x90, 0x90, 0x90, 0xE0,
     0xF0, 0x80, 0xF0, 0x80, 0xF0,  0xF0, 0x80, 0xF0, 0x80, 0x80]

/-- The settings of a machine that chooses neither (R8). -/
def defaultParams : Params := ⟨defaultProgramEnd, defaultFontData⟩

end Sys2Proof.Machine
end

