-- ==== Sys2Proof/Machine/State.lean ====
section
/-! DEFINITION. The state of the CORE: every element of 10_state.md R47, the settings of the machine (00_scope.md R8),
and the supply of random bytes a STEP is given (40_execution_cycle.md R131). Plain data. -/

namespace Sys2Proof.Machine

/-- The fault codes of 60_exceptions.md R281. A fault is recorded in FAULT by a NEXT state; it is not a `Fault`. -/
inductive FaultCode where
  /-- 0: not faulted -/
  | none
  /-- 1: decode, any STEP -/
  | illegalInstruction
  /-- 2: 2nnn at SP = 16 -/
  | stackOverflow
  /-- 3: 00EE at SP = 0 -/
  | stackUnderflow
  /-- 4: PC or PC+1 outside the program region, any STEP -/
  | fetchOutOfRange
  /-- 5: Dxyn, Fx33, Fx55, Fx65 at an address of 0x1000 or more -/
  | memoryOutOfRange
  /-- 6: Fx33, Fx55, Fx65 below 0x1000 outside the program region -/
  | reservedAccess
  /-- 7: Ex9E, ExA1 with Vx > 0xF -/
  | keyIndexOutOfRange
  /-- 8: Fx29 with Vx > 0xF -/
  | fontDigitOutOfRange
  deriving DecidableEq, Repr

/-- The fault register FAULT (10_state.md R39): its code names are the legal values 0..8 of the 8-bit field. -/
structure FaultRegister where
  code : FaultCode
  pc   : Word
  info : BitVec 17
  deriving DecidableEq, Repr

/-- FAULT when the core is not faulted: all three fields 0 (R39). -/
abbrev FaultRegister.clear : FaultRegister := ⟨.none, 0, 0⟩

/-- Why a step of the MODEL stops: it never does. The spec gives every STEP a next state, a fault included (the fault
entry of R282, the no-op of a faulted core R283), so there is no constructor and nobody raises one. Safe (log 1). -/
inductive Fault
  deriving DecidableEq, Repr

/-- Why the model has no meaning for an instruction. -/
inductive Refusal where
  /-- Raised by an arm of `exec` whose instruction has no meaning yet: by none of the 34. Safe. -/
  | notModelled (mnemonic : String)
  deriving DecidableEq, Repr

/-- The memory: the bytes that differ from what RESET leaves, as (address, byte) pairs, addresses strictly rising
(Machine/Ops.lean `Memory.wf`). -/
abbrev Memory := List Host.Cell

/-- A framebuffer: 32 rows of 64 one-bit cells; cell (cx, cy) is bit cx of row cy (10_state.md R43; log 8). -/
abbrev FrameBuffer := Vector (BitVec 64) 32

/-- The complete state of the CORE (R47), the machine's settings, and the supply of RAND. -/
structure State where
  /-- V[0..15] (R30) -/
  v : Vector Byte 16
  /-- PC (R34) -/
  pc : Word
  /-- I (R35) -/
  i : Word
  /-- SP, the stack depth 0..16 (R36) -/
  sp : Fin 17
  /-- STACK[0..15] (R41) -/
  stack : Vector Word 16
  /-- DT (R37) -/
  dt : Byte
  /-- ST (R38) -/
  st : Byte
  /-- KEYS[0..15], true = down (R42) -/
  keys : Vector Bool 16
  /-- FB[0..63][0..31] (R43) -/
  fb : FrameBuffer
  /-- MEM[0x000..0xFFF] (R44) -/
  mem : Memory
  /-- FAULT.code, .pc, .info (R39) -/
  fault : FaultRegister
  /-- PROGRAM_END and FONT_DATA, fixed for the machine (R8; log 3, log 4) -/
  params : Params
  /-- The model's own field: the RAND draws a host supplied and no Cxkk has used yet (R131; log 2) -/
  draws : List Byte
  /-- The model's own field: how many draws were taken from `Config.freeRand` (R45; log 2) -/
  drawCount : Nat
  deriving DecidableEq, Repr

/-- The state RESET leaves on a machine of the default settings (R47, 70_reset_and_hazards.md R330): memory lists
nothing, so it reads as the font and zeroes. -/
def State.reset : State where
  v         := Vector.replicate 16 0
  pc        := 0x200
  i         := 0
  sp        := 0
  stack     := Vector.replicate 16 0
  dt        := 0
  st        := 0
  keys      := Vector.replicate 16 false
  fb        := Vector.replicate 32 0
  mem       := []
  fault     := .clear
  params    := defaultParams
  draws     := []
  drawCount := 0

end Sys2Proof.Machine
end

