-- ==== Sys2Proof/Machine/Ops.lean ====
section
/-! DEFINITION. The named operations over registers, memory, the stack, the keypad and FAULT that every meaning uses. -/

namespace Sys2Proof.Machine

/-! ### Registers (10_state.md R30, R34 to R38) -/

/-- `V[x]`. -/
def State.reg (s : State) (x : Reg) : Byte := s.v[x]

/-- `V[x] <- b`. -/
def State.setReg (s : State) (x : Reg) (b : Byte) : State := { s with v := s.v.set x b }

/-- `PC <- a`. -/
def State.setPc (s : State) (a : Word) : State := { s with pc := a }

/-- `I <- a`. -/
def State.setI (s : State) (a : Word) : State := { s with i := a }

/-- `DT <- b`. -/
def State.setDt (s : State) (b : Byte) : State := { s with dt := b }

/-- `ST <- b`. -/
def State.setSt (s : State) (b : Byte) : State := { s with st := b }

/-- `FB <- f`. -/
def State.setFb (s : State) (f : FrameBuffer) : State := { s with fb := f }

/-- `V[k] <- bytes k` for every k in 0..x (R235). -/
def State.loadRegs (s : State) (x : Reg) (bytes : Nat → Byte) : State :=
  { s with v := Vector.ofFn fun k : Fin 16 => if k ≤ x then bytes k else s.v[k] }

/-! ### The program counter (40_execution_cycle.md R128) -/

/-- `PC <- PC + 2`, in 16 bits. -/
def State.advance (s : State) : State := s.setPc (s.pc + 2)

/-- `PC <- PC + 4` if the condition holds, else `PC <- PC + 2`. -/
def State.skipIf (s : State) (cond : Bool) : State := s.setPc (if cond then s.pc + 4 else s.pc + 2)

/-! ### Taking a fault (60_exceptions.md R282), the CORE's only exception -/

/-- `raise Fault(code, info)`: records the code, the PC and the info, and changes nothing else (R282). There is no
handler and no return from a fault: only RESET leaves the faulted state (R286; Machine/Transactions.lean `resetCore`). -/
def State.raise (s : State) (code : FaultCode) (info : Nat) : State :=
  { s with fault := ⟨code, s.pc, BitVec.ofNat 17 info⟩ }

/-- The FAULTED control state (40_execution_cycle.md R121). -/
def State.faulted (s : State) : Bool := s.fault.code != .none

/-- The number of a fault code in the 8-bit field FAULT.code (R281). -/
def FaultCode.number : FaultCode → Byte
  | .none                => 0
  | .illegalInstruction  => 1
  | .stackOverflow       => 2
  | .stackUnderflow      => 3
  | .fetchOutOfRange     => 4
  | .memoryOutOfRange    => 5
  | .reservedAccess      => 6
  | .keyIndexOutOfRange  => 7
  | .fontDigitOutOfRange => 8

/-- A failed check: the fault to raise and its info. -/
abbrev Failure := FaultCode × Nat

/-- Checks before writes (40_execution_cycle.md R130): the fault entry when a check failed, else the effect. -/
def guarded (failed : Option Failure) (s effect : State) : State :=
  match failed with
  | some f => s.raise f.1 f.2
  | none   => effect

/-! ### The address decoder (20_memory.md R61, R63, R64) -/

/-- The regions of R61. -/
inductive Region where
  | low
  | prog
  | high
  | none
  deriving DecidableEq, Repr

/-- The access classes of R64. -/
inductive Access where
  | fetch
  | sprite
  | block
  deriving DecidableEq, Repr

/-- `region(a)`, for an address of any size (R63). -/
def region (p : Params) (a : Nat) : Region :=
  if a < Config.programStart then .low
  else if a < p.programEnd then .prog
  else if a < Config.memSize then .high
  else .none

/-- The table of R64: the fault a class raises in a region, or none where it is admitted. -/
def refusedBy : Access → Region → Option FaultCode
  | .fetch,  .prog => none
  | .fetch,  _     => some .fetchOutOfRange
  | .sprite, .none => some .memoryOutOfRange
  | .sprite, _     => none
  | .block,  .prog => none
  | .block,  .none => some .memoryOutOfRange
  | .block,  _     => some .reservedAccess

/-- The admission check of one address (R64); the info of a failure is the address (60_exceptions.md R281). -/
def checkAddr (p : Params) (k : Access) (a : Nat) : Option Failure :=
  (refusedBy k (region p a)).map fun c => (c, a)

/-- The admission checks of `n` addresses from `base`, in increasing order, the first failure wins
(60_exceptions.md R284). Addresses are exact sums. -/
def checkRange (p : Params) (k : Access) (base n : Nat) : Option Failure :=
  (List.range n).findSome? fun j => checkAddr p k (base + j)

/-! ### Memory (20_memory.md R62, R65) -/

/-- What an unlisted address reads as: what RESET leaves there, the font at FONT_BASE and 0 elsewhere (R44, R62; log 11). -/
def Memory.unlisted (font : Vector Byte Config.fontSize) (a : Nat) : Byte :=
  if h : Config.fontBase ≤ a ∧ a - Config.fontBase < Config.fontSize then font[a - Config.fontBase]'h.2 else 0

/-- `MEM[a]`. -/
def Memory.read (font : Vector Byte Config.fontSize) (m : Memory) (a : Nat) : Byte :=
  match m with
  | [] => Memory.unlisted font a
  | c :: rest => if c.1 = a then c.2 else Memory.read font rest a

/-- Puts a cell in its place by address. -/
def Memory.insert (c : Host.Cell) : Memory → Memory
  | [] => [c]
  | d :: rest => if c.1 < d.1 then c :: d :: rest else d :: Memory.insert c rest

/-- `MEM[a] <- b`, in canonical form: a byte equal to the unlisted one is not listed. -/
def Memory.write (font : Vector Byte Config.fontSize) (m : Memory) (a : Nat) (b : Byte) : Memory :=
  let others := m.filter fun c => c.1 != a
  if b = Memory.unlisted font a then others else Memory.insert (a, b) others

/-- `MEM[a] <- b_0; MEM[a+1] <- b_1; …`. -/
def Memory.writeList (font : Vector Byte Config.fontSize) (m : Memory) (a : Nat) : List Byte → Memory
  | [] => m
  | b :: bs => Memory.writeList font (Memory.write font m a b) (a + 1) bs

/-- Canonical form: addresses strictly rising and inside the space, no entry equal to the unlisted byte. -/
def Memory.wf (font : Vector Byte Config.fontSize) (m : Memory) : Bool :=
  decide ((m.map Prod.fst).Pairwise (· < ·))
    && m.all fun c => decide (c.1 < Config.memSize) && (c.2 != Memory.unlisted font c.1)

/-- `MemRead(a, 1)`, for an admitted address (R65). -/
def State.readByte (s : State) (a : Nat) : Byte := Memory.read s.params.fontData s.mem a

/-- `MemWrite(a, 1, b_0); MemWrite(a + 1, 1, b_1); …`, for admitted addresses (R65). -/
def State.writeBytes (s : State) (a : Nat) (bs : List Byte) : State :=
  { s with mem := Memory.writeList s.params.fontData s.mem a bs }

/-! ### The stack controller (42_control_flow.md R170) -/

/-- Push: writes `STACK[SP]` and then increments SP. -/
def State.push (s : State) (ret : Word) (h : s.sp.val < 16) : State :=
  { s with stack := s.stack.set s.sp.val ret, sp := ⟨s.sp.val + 1, Nat.succ_lt_succ h⟩ }

/-- `STACK[SP - 1]`, the entry a pop reads. -/
def State.top (s : State) (h : 0 < s.sp.val) : Word :=
  s.stack[s.sp.val - 1]'(by have := s.sp.isLt; omega)

/-- Pop: decrements SP; the popped entry keeps its value (10_state.md R41; log 9). -/
def State.pop (s : State) : State :=
  { s with sp := ⟨s.sp.val - 1, Nat.lt_of_le_of_lt (Nat.sub_le _ _) s.sp.isLt⟩ }

/-! ### The keypad (10_state.md R42) -/

/-- `KEYS[k] == 1`. -/
def State.keyDown (s : State) (k : Fin 16) : Bool := s.keys[k]

/-- The smallest key that is down, if one is (45_keypad_timers.md R263). -/
def State.firstKeyDown (s : State) : Option (Fin 16) := (List.finRange 16).find? s.keyDown

/-! ### The random draw (40_execution_cycle.md R131) -/

/-- RAND: the draw the host supplied, else a free value (log 2). -/
def State.rand (s : State) : Byte :=
  match s.draws with
  | r :: _ => r
  | []     => Config.freeRand s.drawCount

/-- The state after the draw is used: the next Cxkk sees another one (log 5). -/
def State.useRand (s : State) : State :=
  match s.draws with
  | _ :: rest => { s with draws := rest }
  | []        => { s with drawCount := s.drawCount + 1 }

end Sys2Proof.Machine
end

