-- ==== Sys2Proof/Machine/Flags.lean ====
section
/-! DEFINITION. Every flag computation (10_state.md R33) and the write order of a flag-writing instruction
(40_execution_cycle.md R127). VF is the only flag, and a flag is 0 or 1. -/

namespace Sys2Proof.Machine

/-- `cond ? 1 : 0`. -/
def flagOf (cond : Bool) : Byte := if cond then 1 else 0

/-- 8xy4: 1 when the exact sum exceeds 255 (43_alu.md R196). -/
def carryFlag (a b : Byte) : Byte := flagOf (decide (255 < a.toNat + b.toNat))

/-- 8xy5 and 8xy7: 1 when the minuend is strictly greater, so 0 when the operands are equal (R197, R199). -/
def noBorrowFlag (minuend subtrahend : Byte) : Byte := flagOf (decide (subtrahend.toNat < minuend.toNat))

/-- 8xy6: the bit shifted out on the right (R198). -/
def lowBitFlag (a : Byte) : Byte := a &&& 1

/-- 8xyE: the bit shifted out on the left (R200). -/
def highBitFlag (a : Byte) : Byte := (a >>> 7) &&& 1

/-- Dxyn: 1 when the draw turned a lit cell off (41_display.md R141). -/
def collisionFlag (hit : Bool) : Byte := flagOf hit

/-- Flag first, destination second: with x = F the result wins (R127). -/
def State.setFlagAndReg (s : State) (x : Reg) (flag result : Byte) : State := (s.setReg VF flag).setReg x result

end Sys2Proof.Machine
end

