-- ==== Sys2Proof/Machine/Alu.lean ====
section
/-! DEFINITION. Register and ALU instructions (43_alu.md). Operands are the values before the instruction
(40_execution_cycle.md R125), 8-bit results wrap modulo 256 (R202), and only 8xy4 to 8xyE write VF as a flag (R126). -/

namespace Sys2Proof.Machine

/-- 6xkk `LD Vx, kk` (R190). -/
def execLdImm (x : Reg) (kk : Byte) (s : State) : Host.Outcome State Fault Refusal := .next (s.setReg x kk).advance

/-- 7xkk `ADD Vx, kk`, with no flag (R191). -/
def execAddImm (x : Reg) (kk : Byte) (s : State) : Host.Outcome State Fault Refusal :=
  .next (s.setReg x (s.reg x + kk)).advance

/-- 8xy0 `LD Vx, Vy` (R192). -/
def execLdReg (x y : Reg) (s : State) : Host.Outcome State Fault Refusal := .next (s.setReg x (s.reg y)).advance

/-- 8xy1 `OR Vx, Vy` (R193). -/
def execOrReg (x y : Reg) (s : State) : Host.Outcome State Fault Refusal :=
  .next (s.setReg x (s.reg x ||| s.reg y)).advance

/-- 8xy2 `AND Vx, Vy` (R194). -/
def execAndReg (x y : Reg) (s : State) : Host.Outcome State Fault Refusal :=
  .next (s.setReg x (s.reg x &&& s.reg y)).advance

/-- 8xy3 `XOR Vx, Vy` (R195). -/
def execXorReg (x y : Reg) (s : State) : Host.Outcome State Fault Refusal :=
  .next (s.setReg x (s.reg x ^^^ s.reg y)).advance

/-- 8xy4 `ADD Vx, Vy`, carry in VF (R196). -/
def execAddReg (x y : Reg) (s : State) : Host.Outcome State Fault Refusal :=
  .next (s.setFlagAndReg x (carryFlag (s.reg x) (s.reg y)) (s.reg x + s.reg y)).advance

/-- 8xy5 `SUB Vx, Vy` (R197). -/
def execSub (x y : Reg) (s : State) : Host.Outcome State Fault Refusal :=
  .next (s.setFlagAndReg x (noBorrowFlag (s.reg x) (s.reg y)) (s.reg x - s.reg y)).advance

/-- 8xy6 `SHR Vx`; Vy is not read (R198, 30_encoding.md R98). -/
def execShr (x _y : Reg) (s : State) : Host.Outcome State Fault Refusal :=
  .next (s.setFlagAndReg x (lowBitFlag (s.reg x)) (s.reg x >>> 1)).advance

/-- 8xy7 `SUBN Vx, Vy` (R199). -/
def execSubn (x y : Reg) (s : State) : Host.Outcome State Fault Refusal :=
  .next (s.setFlagAndReg x (noBorrowFlag (s.reg y) (s.reg x)) (s.reg y - s.reg x)).advance

/-- 8xyE `SHL Vx`; Vy is not read (R200, 30_encoding.md R98). -/
def execShl (x _y : Reg) (s : State) : Host.Outcome State Fault Refusal :=
  .next (s.setFlagAndReg x (highBitFlag (s.reg x)) (s.reg x <<< 1)).advance

/-- Cxkk `RND Vx, kk` (R201); it alone uses the draw (40_execution_cycle.md R131). -/
def execRnd (x : Reg) (kk : Byte) (s : State) : Host.Outcome State Fault Refusal :=
  .next (s.useRand.setReg x (s.rand &&& kk)).advance

end Sys2Proof.Machine
end

