-- ==== Sys2Proof/Machine/Operands.lean ====
section
/-! DEFINITION. The operand forms of the instructions (30_encoding.md R93): immediates are unsigned and never
sign-extended, addresses are zero-extended, a block of registers is V0..Vx, and a digit or key number is 0..15. -/

namespace Sys2Proof.Machine

/-- `zext_16(nnn)`. -/
def zextAddr (nnn : Addr) : Word := nnn.setWidth 16

/-- `zext_16(b)`. -/
def zextByte (b : Byte) : Word := b.setWidth 16

/-- A hexadecimal digit held in a byte: a key number or a font digit; none above 0xF. -/
def digit? (b : Byte) : Option (Fin 16) :=
  if h : b.toNat < 16 then some ⟨b.toNat, h⟩ else none

/-- A digit as a byte. -/
def digitByte (d : Fin 16) : Byte := BitVec.ofNat 8 d.val

/-- The bytes of V0..Vx, V0 first (44_index_memory.md R234). -/
def State.regBlock (s : State) (x : Reg) : List Byte := s.v.toList.take (x.val + 1)

/-- The address of the font sprite of a digit (20_memory.md R62). -/
def fontAddr (d : Fin 16) : Word := BitVec.ofNat 16 (Config.fontBase + Config.fontEntry * d.val)

/-- The decimal digits of a byte: hundreds, tens, ones (44_index_memory.md R233). -/
def bcdBytes (b : Byte) : List Byte :=
  [BitVec.ofNat 8 (b.toNat / 100), BitVec.ofNat 8 (b.toNat / 10 % 10), BitVec.ofNat 8 (b.toNat % 10)]

end Sys2Proof.Machine
end

