-- ==== Sys2Proof/Machine/Display.lean ====
section
/-! DEFINITION. The framebuffer writer and the sprite-XOR drawing engine (41_display.md). -/

namespace Sys2Proof.Machine

/-- `FB[cx][cy]` (10_state.md R43). -/
def FrameBuffer.cell (f : FrameBuffer) (cx : Fin 64) (cy : Fin 32) : Bool := f[cy].getLsbD cx

/-- `FB[cx][cy] <- FB[cx][cy] ^ 1`. -/
def FrameBuffer.toggle (f : FrameBuffer) (cx : Fin 64) (cy : Fin 32) : FrameBuffer :=
  f.set cy (f[cy] ^^^ BitVec.twoPow 64 cx)

/-- All cells 0. -/
def FrameBuffer.blank : FrameBuffer := Vector.replicate 32 0

/-- `a mod 64`, the column of a coordinate. -/
def column (a : Nat) : Fin 64 := Fin.ofNat 64 a

/-- `a mod 32`, the row of a coordinate. -/
def row (a : Nat) : Fin 32 := Fin.ofNat 32 a

/-- What a draw carries along: the framebuffer and `hit`. -/
abbrev Canvas := FrameBuffer × Bool

/-- One sprite bit of 1 at (X + c, Y + r): the collision test, then the toggle (R141). -/
def plot (k : Canvas) (cx : Fin 64) (cy : Fin 32) : Canvas := (k.1.toggle cx cy, k.2 || k.1.cell cx cy)

/-- One sprite row: columns c = 0..7, the most significant bit first (R141). -/
def drawRow (X Y r : Nat) (bits : Byte) (k : Canvas) : Canvas :=
  (List.range 8).foldl (fun k c => if bits.getLsbD (7 - c) then plot k (column (X + c)) (row (Y + r)) else k) k

/-- The sprite, rows top to bottom: row r is `sprite r`, for r in 0..n-1 (R141). -/
def drawSprite (X Y n : Nat) (sprite : Nat → Byte) (k : Canvas) : Canvas :=
  (List.range n).foldl (fun k r => drawRow X Y r (sprite r) k) k

/-- 00E0 `CLS` (R140). -/
def execCls (s : State) : Host.Outcome State Fault Refusal := .next (s.setFb FrameBuffer.blank).advance

/-- Dxyn `DRW Vx, Vy, n` (R141). -/
def execDrw (x y : Reg) (n : Fin 16) (s : State) : Host.Outcome State Fault Refusal :=
  let drawn := drawSprite (s.reg x).toNat (s.reg y).toNat n (fun r => s.readByte (s.i.toNat + r)) (s.fb, false)
  .next (guarded (checkRange s.params .sprite s.i.toNat n) s
    ((s.setFb drawn.1).setReg VF (collisionFlag drawn.2)).advance)

end Sys2Proof.Machine
end

