-- ==== Sys2Proof/Machine/IndexMemory.lean ====
section
/-! DEFINITION. Index register, font, BCD and register-block instructions (44_index_memory.md). Addresses `I + k` are
exact sums; every admission check comes before the first write; no instruction here changes I by accessing memory. -/

namespace Sys2Proof.Machine

/-- Annn `LD I, addr` (R230). -/
def execLdI (nnn : Addr) (s : State) : Host.Outcome State Fault Refusal := .next (s.setI (zextAddr nnn)).advance

/-- Fx1E `ADD I, Vx`, modulo 65536, with no flag (R231). -/
def execAddI (x : Reg) (s : State) : Host.Outcome State Fault Refusal :=
  .next (s.setI (s.i + zextByte (s.reg x))).advance

/-- Fx29 `LD F, Vx` (R232). -/
def execLdF (x : Reg) (s : State) : Host.Outcome State Fault Refusal :=
  match digit? (s.reg x) with
  | some d => .next (s.setI (fontAddr d)).advance
  | none   => .next (s.raise .fontDigitOutOfRange (s.reg x).toNat)

/-- Fx33 `LD B, Vx` (R233). -/
def execLdB (x : Reg) (s : State) : Host.Outcome State Fault Refusal :=
  .next (guarded (checkRange s.params .block s.i.toNat 3) s (s.writeBytes s.i.toNat (bcdBytes (s.reg x))).advance)

/-- Fx55 `LD [I], Vx` (R234). -/
def execLdMemVx (x : Reg) (s : State) : Host.Outcome State Fault Refusal :=
  .next (guarded (checkRange s.params .block s.i.toNat (x.val + 1)) s (s.writeBytes s.i.toNat (s.regBlock x)).advance)

/-- Fx65 `LD Vx, [I]` (R235). -/
def execLdVxMem (x : Reg) (s : State) : Host.Outcome State Fault Refusal :=
  .next (guarded (checkRange s.params .block s.i.toNat (x.val + 1)) s
    (s.loadRegs x fun k => s.readByte (s.i.toNat + k)).advance)

end Sys2Proof.Machine
end

