-- ==== Sys2Proof/Machine/KeypadTimers.lean ====
section
/-! DEFINITION. Keypad and timer instructions (45_keypad_timers.md). They see the keypad latch as the last SET_KEYS left
it, and none changes it. -/

namespace Sys2Proof.Machine

/-- Ex9E `SKP Vx` (R260). -/
def execSkp (x : Reg) (s : State) : Host.Outcome State Fault Refusal :=
  match digit? (s.reg x) with
  | some k => .next (s.skipIf (s.keyDown k))
  | none   => .next (s.raise .keyIndexOutOfRange (s.reg x).toNat)

/-- ExA1 `SKNP Vx` (R261). -/
def execSknp (x : Reg) (s : State) : Host.Outcome State Fault Refusal :=
  match digit? (s.reg x) with
  | some k => .next (s.skipIf (!s.keyDown k))
  | none   => .next (s.raise .keyIndexOutOfRange (s.reg x).toNat)

/-- Fx07 `LD Vx, DT` (R262). -/
def execLdVxDt (x : Reg) (s : State) : Host.Outcome State Fault Refusal := .next (s.setReg x s.dt).advance

/-- Fx0A `LD Vx, K`: while no key is down the step changes nothing and PC stays (R263, 90_conflicts.md C14). -/
def execLdVxK (x : Reg) (s : State) : Host.Outcome State Fault Refusal :=
  match s.firstKeyDown with
  | some k => .next (s.setReg x (digitByte k)).advance
  | none   => .next s

/-- Fx15 `LD DT, Vx` (R264). -/
def execLdDtVx (x : Reg) (s : State) : Host.Outcome State Fault Refusal := .next (s.setDt (s.reg x)).advance

/-- Fx18 `LD ST, Vx` (R265). -/
def execLdStVx (x : Reg) (s : State) : Host.Outcome State Fault Refusal := .next (s.setSt (s.reg x)).advance

end Sys2Proof.Machine
end

