-- ==== Sys2Proof/Decode.lean ====
section
/-! DEFINITION. Decoding (30_encoding.md R91 to R99), total on any bytes, and the encoder. A word is one instruction;
the byte at the lower address is its high byte (20_memory.md R66). -/

namespace Sys2Proof

/-! ### Fields of the word (R91) -/

/-- `op` = w[15:12], the opcode family. -/
def opField (w : Word) : BitVec 4 := w.extractLsb' 12 4

/-- `x` = w[11:8]. -/
def xField (w : Word) : BitVec 4 := w.extractLsb' 8 4

/-- `y` = w[7:4]. -/
def yField (w : Word) : BitVec 4 := w.extractLsb' 4 4

/-- `n` = w[3:0]. -/
def nField (w : Word) : BitVec 4 := w.extractLsb' 0 4

/-- `kk` = w[7:0]. -/
def kkField (w : Word) : Byte := w.extractLsb' 0 8

/-- `nnn` = w[11:0]. -/
def nnnField (w : Word) : Addr := w.extractLsb' 0 12

/-! ### Formats of the word (R92) -/

/-- Formats `xy` and `xyn`: four hex digits. -/
def wordXYN (op x y n : BitVec 4) : Word := op ++ x ++ y ++ n

/-- Formats `xkk` and `x`: two hex digits and a byte. -/
def wordXKK (op x : BitVec 4) (kk : Byte) : Word := op ++ x ++ kk

/-- Format `nnn`: one hex digit and an address. -/
def wordNNN (op : BitVec 4) (nnn : Addr) : Word := op ++ nnn

/-- A register index as its 4-bit field. -/
def Reg.bits (x : Reg) : BitVec 4 := BitVec.ofFin x

/-! ### Decode -/

/-- Family 8, selected by n (R94, R95). -/
def decode8 (x y : Reg) (n : BitVec 4) : Option Instr :=
  match n.toNat with
  | 0x0 => some (.ldReg x y)
  | 0x1 => some (.orReg x y)
  | 0x2 => some (.andReg x y)
  | 0x3 => some (.xorReg x y)
  | 0x4 => some (.addReg x y)
  | 0x5 => some (.sub x y)
  | 0x6 => some (.shr x y)
  | 0x7 => some (.subn x y)
  | 0xE => some (.shl x y)
  | _   => none

/-- Family E, selected by kk (R94, R95). -/
def decodeE (x : Reg) (kk : Byte) : Option Instr :=
  match kk.toNat with
  | 0x9E => some (.skp x)
  | 0xA1 => some (.sknp x)
  | _    => none

/-- Family F, selected by kk (R94, R95). -/
def decodeF (x : Reg) (kk : Byte) : Option Instr :=
  match kk.toNat with
  | 0x07 => some (.ldVxDt x)
  | 0x0A => some (.ldVxK x)
  | 0x15 => some (.ldDtVx x)
  | 0x18 => some (.ldStVx x)
  | 0x1E => some (.addI x)
  | 0x29 => some (.ldF x)
  | 0x33 => some (.ldB x)
  | 0x55 => some (.ldMemVx x)
  | 0x65 => some (.ldVxMem x)
  | _    => none

/-- `decode(w)` of R95, with the fields given: total on every word, `none` is `Illegal`. -/
def decodeFields (w : Word) (op : BitVec 4) (x y : Reg) (n : BitVec 4) (kk : Byte) (nnn : Addr) : Option Instr :=
  match op.toNat with
  | 0x0 => if w = 0x00E0 then some .cls else if w = 0x00EE then some .ret else none
  | 0x1 => some (.jp nnn)
  | 0x2 => some (.call nnn)
  | 0x3 => some (.seImm x kk)
  | 0x4 => some (.sneImm x kk)
  | 0x5 => if n = 0 then some (.seReg x y) else none
  | 0x6 => some (.ldImm x kk)
  | 0x7 => some (.addImm x kk)
  | 0x8 => decode8 x y n
  | 0x9 => if n = 0 then some (.sneReg x y) else none
  | 0xA => some (.ldI nnn)
  | 0xB => some (.jpV0 nnn)
  | 0xC => some (.rnd x kk)
  | 0xD => some (.drw x y n.toFin)
  | 0xE => decodeE x kk
  | 0xF => decodeF x kk
  | _   => none

/-- `decode(w)` of R95. -/
def decodeWord (w : Word) : Option Instr :=
  decodeFields w (opField w) (xField w).toFin (yField w).toFin (nField w) (kkField w) (nnnField w)

/-- Why bytes are no instruction. -/
inductive DecodeError where
  /-- `Illegal`: the word is in no row of the opcode table (R96). -/
  | illegal (w : Word)
  /-- Fewer than two bytes: a decoder always consumes two (R99). -/
  | truncated
  deriving DecidableEq, Repr

/-- The word of two bytes, high byte first (R66, 00_scope.md R11). -/
def wordOfBytes (hi lo : Byte) : Word := hi ++ lo

/-- The two bytes of a word as memory holds them, the lower address first (R66). -/
def bytesOfWord (w : Word) : Byte × Byte := (w.extractLsb' 8 8, w.extractLsb' 0 8)

/-- Decodes the instruction at the head of a byte sequence and answers the bytes after it (R90, R99). -/
def decode : List Byte → Except DecodeError (Instr × List Byte)
  | hi :: lo :: rest =>
    match decodeWord (wordOfBytes hi lo) with
    | some i => .ok (i, rest)
    | none   => .error (.illegal (wordOfBytes hi lo))
  | _ => .error .truncated

/-! ### Encode -/

/-- The word of an instruction, from the patterns of R92 and R94. -/
def encode : Instr → Word
  | .cls        => 0x00E0
  | .ret        => 0x00EE
  | .jp nnn     => wordNNN 0x1 nnn
  | .call nnn   => wordNNN 0x2 nnn
  | .seImm x kk  => wordXKK 0x3 (Reg.bits x) kk
  | .sneImm x kk => wordXKK 0x4 (Reg.bits x) kk
  | .seReg x y  => wordXYN 0x5 (Reg.bits x) (Reg.bits y) 0x0
  | .ldImm x kk  => wordXKK 0x6 (Reg.bits x) kk
  | .addImm x kk => wordXKK 0x7 (Reg.bits x) kk
  | .ldReg x y  => wordXYN 0x8 (Reg.bits x) (Reg.bits y) 0x0
  | .orReg x y  => wordXYN 0x8 (Reg.bits x) (Reg.bits y) 0x1
  | .andReg x y => wordXYN 0x8 (Reg.bits x) (Reg.bits y) 0x2
  | .xorReg x y => wordXYN 0x8 (Reg.bits x) (Reg.bits y) 0x3
  | .addReg x y => wordXYN 0x8 (Reg.bits x) (Reg.bits y) 0x4
  | .sub x y    => wordXYN 0x8 (Reg.bits x) (Reg.bits y) 0x5
  | .shr x y    => wordXYN 0x8 (Reg.bits x) (Reg.bits y) 0x6
  | .subn x y   => wordXYN 0x8 (Reg.bits x) (Reg.bits y) 0x7
  | .shl x y    => wordXYN 0x8 (Reg.bits x) (Reg.bits y) 0xE
  | .sneReg x y => wordXYN 0x9 (Reg.bits x) (Reg.bits y) 0x0
  | .ldI nnn    => wordNNN 0xA nnn
  | .jpV0 nnn   => wordNNN 0xB nnn
  | .rnd x kk   => wordXKK 0xC (Reg.bits x) kk
  | .drw x y n  => wordXYN 0xD (Reg.bits x) (Reg.bits y) (Reg.bits n)
  | .skp x      => wordXKK 0xE (Reg.bits x) 0x9E
  | .sknp x     => wordXKK 0xE (Reg.bits x) 0xA1
  | .ldVxDt x   => wordXKK 0xF (Reg.bits x) 0x07
  | .ldVxK x    => wordXKK 0xF (Reg.bits x) 0x0A
  | .ldDtVx x   => wordXKK 0xF (Reg.bits x) 0x15
  | .ldStVx x   => wordXKK 0xF (Reg.bits x) 0x18
  | .addI x     => wordXKK 0xF (Reg.bits x) 0x1E
  | .ldF x      => wordXKK 0xF (Reg.bits x) 0x29
  | .ldB x      => wordXKK 0xF (Reg.bits x) 0x33
  | .ldMemVx x  => wordXKK 0xF (Reg.bits x) 0x55
  | .ldVxMem x  => wordXKK 0xF (Reg.bits x) 0x65

/-! ### The opcode table's words -/

/-- The instruction word of an opcode-table word of `nbits` bits: the bits above `nbits` are 0 (log 12). -/
def tableWord (nbits w : Nat) : Word := BitVec.ofNat 16 (w % 2 ^ nbits)

/-- What the decoder reads from an opcode-table word, laid out as memory holds it. -/
def decodeTableWord (nbits w : Nat) : Option Instr :=
  match decode [(bytesOfWord (tableWord nbits w)).1, (bytesOfWord (tableWord nbits w)).2] with
  | .ok (i, _) => some i
  | .error _   => none

end Sys2Proof
end

