-- ==== Sys2Proof/Machine/Fetch.lean ====
section
/-! DEFINITION. Fetch and decode (40_execution_cycle.md R122 to R124), and placing a word where the next fetch reads. -/

namespace Sys2Proof.Machine

/-- The FETCH admission of PC, then of PC + 1 (R122, 20_memory.md R64). -/
def State.fetchFailure (s : State) : Option Failure := checkRange s.params .fetch s.pc.toNat 2

/-- The big-endian word at PC and PC + 1 (R122, 20_memory.md R66). -/
def State.fetchWord (s : State) : Word := wordOfBytes (s.readByte s.pc.toNat) (s.readByte (s.pc.toNat + 1))

/-- The instruction at PC, or the fault of the fetch or of the decode (R132). -/
def State.fetchDecode (s : State) : Except Failure Instr :=
  match s.fetchFailure with
  | some f => .error f
  | none   =>
    match decodeWord s.fetchWord with
    | some i => .ok i
    | none   => .error (.illegalInstruction, s.fetchWord.toNat)

/-- A state that can fetch: not faulted, and PC where it is when its two bytes can be fetched, else at the reset
vector (log 12). -/
def State.readyToFetch (s : State) : State :=
  { s with
    fault := if s.faulted then .clear else s.fault
    pc    := if s.fetchFailure.isNone then s.pc else BitVec.ofNat 16 Config.programStart }

/-- The word's two bytes at PC, high byte first. -/
def State.placeWord (s : State) (w : Word) : State :=
  s.writeBytes s.pc.toNat [(bytesOfWord w).1, (bytesOfWord w).2]

end Sys2Proof.Machine
end

