-- ==== Sys2Proof/Machine/Step.lean ====
section
/-! DEFINITION. The STEP transaction (40_execution_cycle.md R120, R132). -/

namespace Sys2Proof.Machine

/-- STEP: a faulted core does nothing (R121, 60_exceptions.md R283); otherwise the instruction at PC runs, or the fault
of its fetch or decode is entered (R132). -/
def step (s : State) : Host.Outcome State Fault Refusal :=
  if s.faulted then .next s
  else
    match s.fetchDecode with
    | .error f => .next (s.raise f.1 f.2)
    | .ok i    => exec i s

/-- `s` with an opcode-table word where the next STEP fetches, and that STEP able to fetch it (log 12). -/
def State.withFetchWord (s : State) (nbits w : Nat) : State := s.readyToFetch.placeWord (tableWord nbits w)

end Sys2Proof.Machine
end

