-- ==== Sys2Proof/Machine/Transactions.lean ====
section
/-! DEFINITION. The host interface (60_exceptions.md R297): the atomic transactions, and schedules of them in any order
and number (R298). STEP is `step` with the draw RAND the host passes in. -/

namespace Sys2Proof.Machine

/-- RESET (70_reset_and_hazards.md R330): every element of R47 to its reset value, from any state. The machine's settings
and the supply of random bytes are not state of R47 and stay: the re-seeded source has no law (log 6). -/
def resetCore (s : State) : State :=
  { State.reset with params := s.params, draws := s.draws, drawCount := s.drawCount }

/-- Whether a ROM exceeds the capacity PROGRAM_END - 0x200 (R333, 00_scope.md R8). -/
def romTooLarge (s : State) (bytes : List Byte) : Bool :=
  decide (s.params.programEnd - Config.programStart < bytes.length)

/-- LOAD_ROM (R333): copies the bytes from 0x200, or writes nothing when they are too many. -/
def loadRom (bytes : List Byte) (s : State) : State :=
  if romTooLarge s bytes then s else s.writeBytes Config.programStart bytes

/-- SET_KEYS (R299). -/
def setKeys (keys : Vector Bool 16) (s : State) : State := { s with keys := keys }

/-- One timer's count: down by 1 when it is not 0 (R293). -/
def countDown (b : Byte) : Byte := if 0 < b.toNat then b - 1 else b

/-- TICK (R293), in every control state (R296). -/
def tick (s : State) : State := { s with dt := countDown s.dt, st := countDown s.st }

/-- `SOUND = (ST > 0)` (R301). -/
def sound (s : State) : Bool := decide (0 < s.st.toNat)

/-- STEP(RAND) (40_execution_cycle.md R132): `step` with RAND the draw of this STEP, whatever the model's own supply
holds. -/
def stepRand (rand : Byte) (s : State) : Host.Outcome State Fault Refusal :=
  match step { s with draws := [rand] } with
  | .next t    => .next { t with draws := s.draws }
  | .fault f   => .fault f
  | .refused r => .refused r

/-- The transactions of R297. -/
inductive Transaction where
  | reset
  | loadRom (bytes : List Byte)
  | setKeys (keys : Vector Bool 16)
  | step (rand : Byte)
  | tick
  | readFb
  | readSound
  | readFault
  | readState
  deriving DecidableEq, Repr

/-- What `read state` outputs: the nine elements its row of R297 lists (10_state.md R47). FB and FAULT have reads of their
own. -/
structure StateReading where
  v     : Vector Byte 16
  i     : Word
  pc    : Word
  sp    : Fin 17
  stack : Vector Word 16
  dt    : Byte
  st    : Byte
  keys  : Vector Bool 16
  mem   : Vector Byte Config.memSize
  deriving DecidableEq, Repr

/-- The elements `read state` outputs, as they stand. -/
def readState (s : State) : StateReading where
  v     := s.v
  i     := s.i
  pc    := s.pc
  sp    := s.sp
  stack := s.stack
  dt    := s.dt
  st    := s.st
  keys  := s.keys
  mem   := Vector.ofFn fun a => s.readByte a.val

/-- The outputs of R297. -/
inductive Response where
  /-- the transaction has no output -/
  | noOutput
  /-- LOAD_ROM's ok -/
  | ok
  /-- LOAD_ROM's rejection (R285, R333) -/
  | romTooLarge
  | fb (cells : FrameBuffer)
  | sound (on : Bool)
  | fault (code : Byte) (pc : Word) (info : BitVec 17)
  | state (r : StateReading)
  deriving DecidableEq, Repr

/-- The state a transaction leaves (R297). -/
def transact (t : Transaction) (s : State) : Host.Outcome State Fault Refusal :=
  match t with
  | .reset         => .next (resetCore s)
  | .loadRom bytes => .next (loadRom bytes s)
  | .setKeys keys  => .next (setKeys keys s)
  | .step rand     => stepRand rand s
  | .tick          => .next (tick s)
  | .readFb        => .next s
  | .readSound     => .next s
  | .readFault     => .next s
  | .readState     => .next s

/-- The output of a transaction issued in a state (R297). -/
def respond (t : Transaction) (s : State) : Response :=
  match t with
  | .reset         => .noOutput
  | .loadRom bytes => if romTooLarge s bytes then .romTooLarge else .ok
  | .setKeys _     => .noOutput
  | .step _        => .noOutput
  | .tick          => .noOutput
  | .readFb        => .fb s.fb
  | .readSound     => .sound (sound s)
  | .readFault     => .fault s.fault.code.number s.fault.pc s.fault.info
  | .readState     => .state (readState s)

/-- A schedule of transactions, in the order the host issues them (R298, 20_memory.md R73). -/
def runSchedule : List Transaction → State → Host.Outcome State Fault Refusal
  | [], s => .next s
  | t :: rest, s =>
    match transact t s with
    | .next s'   => runSchedule rest s'
    | .fault f   => .fault f
    | .refused r => .refused r

end Sys2Proof.Machine
end

