-- ==== Sys2Proof/Machine/EndOfRun.lean ====
section
/-! DEFINITION. The two ends of a run (60_exceptions.md R305): a run is a start state and a schedule of transactions, and
it ends at the first state of either kind. -/

namespace Sys2Proof.Machine

/-- The condition of a normal end on the state alone: not faulted, and the word the next STEP fetches is a jump to itself
(log 15). It is a normal end only where a STEP reached it (`State.endHere`). -/
def State.endsNormally (s : State) : Bool :=
  !s.faulted &&
    match s.fetchDecode with
    | .ok (.jp nnn) => zextAddr nnn == s.pc
    | _             => false

/-- The condition of an end in error: `FAULT.code != 0`. -/
def State.endsInError (s : State) : Bool := s.faulted

/-- The two kinds of end. -/
inductive RunEnd where
  | normal
  | inError
  deriving DecidableEq, Repr

/-- STEP, among the transactions. -/
def Transaction.isStep : Transaction → Bool
  | .step _ => true
  | .reset | .loadRom _ | .setKeys _ | .tick | .readFb | .readSound | .readFault | .readState => false

/-- The end a run has in this state, `byStep` saying whether a STEP reached it: any fault ends it in error, and a jump to
itself ends it normally when a STEP reached it. -/
def State.endHere (byStep : Bool) (s : State) : Option RunEnd :=
  if s.endsInError then some .inError
  else if byStep && s.endsNormally then some .normal
  else none

/-- Where a run ends: the kind, how many transactions of the schedule came before, and the state. -/
structure EndOfRun where
  kind  : RunEnd
  after : Nat
  state : State
  deriving DecidableEq, Repr

/-- The first end from here on, `n` transactions into the schedule. -/
def firstEndFrom (byStep : Bool) (n : Nat) : List Transaction → State → Option EndOfRun
  | [], s => (s.endHere byStep).map fun kind => ⟨kind, n, s⟩
  | t :: rest, s =>
    match s.endHere byStep with
    | some kind => some ⟨kind, n, s⟩
    | none      =>
      match transact t s with
      | .next s'   => firstEndFrom t.isStep (n + 1) rest s'
      | .fault _   => none
      | .refused _ => none

/-- The end of the run of a schedule from a state, which no transaction has reached yet; none where the run has not ended
by the end of the schedule. -/
def firstEnd (sched : List Transaction) (s : State) : Option EndOfRun := firstEndFrom false 0 sched s

end Sys2Proof.Machine
end

