-- ==== Sys2Proof/Safety.lean ====
section
/-! DEFINITION. The terms claims are stated in: what can be observed of a state, what an instruction may write, the
invariant of every state a run reaches. -/

namespace Sys2Proof.Machine

/-- An element of the state of 10_state.md R47. -/
inductive Element where
  | reg (x : Reg)
  | i
  | pc
  | sp
  | stack (j : Fin 16)
  | dt
  | st
  | key (k : Fin 16)
  | cell (cx : Fin 64) (cy : Fin 32)
  | mem (a : Nat)
  | faultCode
  | faultPc
  | faultInfo
  deriving DecidableEq, Repr

/-- The value of an element, an unsigned number (00_scope.md R10): the read accessors of 60_exceptions.md R297. -/
def State.observe (s : State) : Element → Nat
  | .reg x      => (s.reg x).toNat
  | .i          => s.i.toNat
  | .pc         => s.pc.toNat
  | .sp         => s.sp.val
  | .stack j    => s.stack[j].toNat
  | .dt         => s.dt.toNat
  | .st         => s.st.toNat
  | .key k      => (s.keyDown k).toNat
  | .cell cx cy => (s.fb.cell cx cy).toNat
  | .mem a      => (s.readByte a).toNat
  | .faultCode  => s.fault.code.number.toNat
  | .faultPc    => s.fault.pc.toNat
  | .faultInfo  => s.fault.info.toNat

/-- The writes of an instruction in the order its rule gives them; the later write of an element wins
(00_scope.md R15, 40_execution_cycle.md R127). -/
def lastWrite : List (Element × Nat) → Element → Option Nat
  | [], _ => none
  | w :: rest, e =>
    match lastWrite rest e with
    | some n => some n
    | none   => if w.1 = e then some w.2 else none

/-- `t` is `s` with exactly the given elements written: every other element keeps its value (40_execution_cycle.md R126). -/
def Writes (s t : State) (written : Element → Option Nat) : Prop :=
  ∀ e, t.observe e = (written e).getD (s.observe e)

/-- The machine's settings and the supply of RAND are as before. -/
def SameSupply (s t : State) : Prop := t.params = s.params ∧ t.draws = s.draws ∧ t.drawCount = s.drawCount

/-- The complete effect of an instruction that uses no draw (R126). -/
def Effect (s t : State) (written : Element → Option Nat) : Prop := Writes s t written ∧ SameSupply s t

/-- `PC <- PC + d`, in 16 bits (R128). -/
def pcPlus (s : State) (d : Nat) : Element × Nat := (.pc, (s.pc.toNat + d) % 65536)

/-- The writes of the fault entry (60_exceptions.md R282). -/
def faultWrites (s : State) (code info : Nat) : List (Element × Nat) :=
  [(.faultCode, code), (.faultPc, s.pc.toNat), (.faultInfo, info)]

/-- `region(a) = PROG` (20_memory.md R63). -/
abbrev InProgram (p : Params) (a : Nat) : Prop := 0x200 ≤ a ∧ a < p.programEnd

/-- FAULT holds what the table of 60_exceptions.md R281 says its code stands for. -/
def faultMeaning (s : State) : Prop :=
  match s.fault.code with
  | .none                => s.fault = .clear
  | .illegalInstruction  => ∃ w : Word, wordLegal w = false ∧ s.fault.info.toNat = w.toNat
  | .stackOverflow       => s.sp.val = 16 ∧ s.fault.info = 0
  | .stackUnderflow      => s.sp.val = 0 ∧ s.fault.info = 0
  | .fetchOutOfRange     => ¬ InProgram s.params s.fault.info.toNat ∧
      (s.fault.info.toNat = s.pc.toNat ∨
        (s.fault.info.toNat = s.pc.toNat + 1 ∧ InProgram s.params s.pc.toNat))
  | .memoryOutOfRange    => 0x1000 ≤ s.fault.info.toNat
  | .reservedAccess      => s.fault.info.toNat < 0x1000 ∧ ¬ InProgram s.params s.fault.info.toNat
  | .keyIndexOutOfRange  => 0xF < s.fault.info.toNat ∧ s.fault.info.toNat < 256
  | .fontDigitOutOfRange => 0xF < s.fault.info.toNat ∧ s.fault.info.toNat < 256

/-- What holds of every state a run reaches. -/
structure State.Inv (s : State) : Prop where
  /-- PROGRAM_END is a legal setting (00_scope.md R8) -/
  settings : s.params.wf
  /-- memory keeps its canonical form -/
  memory : Memory.wf s.params.fontData s.mem = true
  /-- only the program region is ever written (20_memory.md R64, 70_reset_and_hazards.md R333) -/
  reserved : ∀ c ∈ s.mem, InProgram s.params c.1
  /-- PC is at most what Bnnn can produce, so no PC update wraps (40_execution_cycle.md R129) -/
  pcBound : s.pc.toNat ≤ 0x10FE
  /-- every live stack entry is the address of a 2nnn that executed (42_control_flow.md R160) -/
  callSites : ∀ j : Fin 16, j.val < s.sp.val →
    InProgram s.params s.stack[j].toNat ∧ InProgram s.params (s.stack[j].toNat + 1)
  /-- FAULT.pc is the PC at which the core stands while it is faulted (60_exceptions.md R282, R283) -/
  faultPc : s.fault.code ≠ .none → s.fault.pc = s.pc
  /-- FAULT agrees with the table of R281 -/
  faultInfo : faultMeaning s

/-- After `k` transactions of a schedule the run is in a state `t` that R305 calls an end of this kind: normal when a STEP
reached it, FAULT is clear, and the word at PC, which can be fetched (log 15), is 1nnn with nnn = PC; in error when
`FAULT.code != 0`. -/
def IsEndAt (sched : List Transaction) (s : State) (kind : RunEnd) (k : Nat) (t : State) : Prop :=
  k ≤ sched.length ∧ runSchedule (sched.take k) s = .next t ∧
    match kind with
    | .normal  => (∃ j rand, k = j + 1 ∧ sched[j]? = some (.step rand)) ∧ t.observe .faultCode = 0 ∧
        InProgram t.params t.pc.toNat ∧ InProgram t.params (t.pc.toNat + 1) ∧ t.pc.toNat < 0x1000 ∧
        t.observe (.mem t.pc.toNat) * 256 + t.observe (.mem (t.pc.toNat + 1)) = 0x1000 + t.pc.toNat
    | .inError => t.observe .faultCode ≠ 0

/-- The same state but for ST, which no instruction reads (10_state.md R38). -/
def SameButSt (s t : State) : Prop := ({ s with st := t.st } : State) = t

/-- The same state but for the stack entries at index SP and above, which no instruction observes (10_state.md R41). -/
def SameButStaleStack (s t : State) : Prop :=
  ({ s with stack := t.stack } : State) = t ∧ ∀ j : Fin 16, j.val < s.sp.val → s.stack[j] = t.stack[j]

end Sys2Proof.Machine
end

