-- ==== Sys2Proof/Certificates/Slice0/Obligations.lean ====
section
/-! DEFINITION. The statements for the provers. Values are stated as unsigned numbers (00_scope.md R10) through
`State.observe`; an instruction's statement gives its next state whole, so it is also its frame and its completion. -/

open Sys2Proof Sys2Proof.Machine

/-! ### Words used below -/

/-- The number in V[x]. -/
abbrev Sys2Proof.Machine.State.V (s : State) (x : Reg) : Nat := s.observe (.reg x)

/-- `cond ? 1 : 0` as a number. -/
abbrev Sys2Proof.Machine.bit (cond : Prop) [Decidable cond] : Nat := if cond then 1 else 0

/-- The sprite of Dxyn has a 1 that lands on cell (cx, cy): bit 7 - c of the byte at I + r, with
cx = (Vx + c) mod 64 and cy = (Vy + r) mod 32 (41_display.md R141). -/
def Sys2Proof.Machine.spriteLights (s : State) (x y : Reg) (n : Fin 16) (cx : Fin 64) (cy : Fin 32) : Bool :=
  decide (∃ r : Fin 16, r < n ∧ ∃ c : Fin 8,
    (s.V x + c.val) % 64 = cx.val ∧ (s.V y + r.val) % 32 = cy.val ∧
      s.observe (.mem (s.i.toNat + r.val)) / 2 ^ (7 - c.val) % 2 = 1)

/-- The register an instruction's rule writes as its destination, or the block V0..Vx of Fx65, and VF where it is
written as a flag (10_state.md R32). -/
def Sys2Proof.Machine.writesReg : Instr → Reg → Bool
  | .ldImm x _, r | .addImm x _, r | .ldReg x _, r | .orReg x _, r | .andReg x _, r | .xorReg x _, r
  | .rnd x _, r | .ldVxDt x, r | .ldVxK x, r => r == x
  | .addReg x _, r | .sub x _, r | .subn x _, r | .shr x _, r | .shl x _, r => r == x || r == VF
  | .drw _ _ _, r => r == VF
  | .ldVxMem x, r => r ≤ x
  | .cls, _ | .ret, _ | .jp _, _ | .call _, _ | .seImm _ _, _ | .sneImm _ _, _ | .seReg _ _, _ | .sneReg _ _, _
  | .ldI _, _ | .jpV0 _, _ | .skp _, _ | .sknp _, _ | .ldDtVx _, _ | .ldStVx _, _ | .addI _, _ | .ldF _, _
  | .ldB _, _ | .ldMemVx _, _ => false

/-- How many bytes at I, I+1, … an instruction stores (20_memory.md R69). -/
def Sys2Proof.Machine.storesBytes : Instr → Nat
  | .ldB _     => 3
  | .ldMemVx x => x.val + 1
  | .cls | .ret | .jp _ | .call _ | .seImm _ _ | .sneImm _ _ | .seReg _ _ | .ldImm _ _ | .addImm _ _ | .ldReg _ _
  | .orReg _ _ | .andReg _ _ | .xorReg _ _ | .addReg _ _ | .sub _ _ | .shr _ _ | .subn _ _ | .shl _ _ | .sneReg _ _
  | .ldI _ | .jpV0 _ | .rnd _ _ | .drw _ _ _ | .skp _ | .sknp _ | .ldVxDt _ | .ldVxK _ | .ldDtVx _ | .ldStVx _
  | .addI _ | .ldF _ | .ldVxMem _ => 0

/-- The elements an instruction may write: those its rule names, PC, and FAULT where its rule can raise a fault
(10_state.md R32, R33, R35 to R43; 40_execution_cycle.md R126). -/
def Sys2Proof.Machine.touches (s : State) (i : Instr) : Element → Bool
  | .reg r    => writesReg i r
  | .i        => match i with | .ldI _ | .addI _ | .ldF _ => true | _ => false
  | .pc       => true
  | .sp       => match i with | .call _ | .ret => true | _ => false
  | .stack j  => match i with | .call _ => j.val == s.sp.val | _ => false
  | .dt       => match i with | .ldDtVx _ => true | _ => false
  | .st       => match i with | .ldStVx _ => true | _ => false
  | .key _    => false
  | .cell _ _ => match i with | .cls | .drw _ _ _ => true | _ => false
  | .mem a    => decide (s.i.toNat ≤ a ∧ a < s.i.toNat + storesBytes i)
  | .faultCode | .faultPc | .faultInfo =>
    match i with
    | .call _ | .ret | .drw _ _ _ | .ldB _ | .ldMemVx _ | .ldVxMem _ | .skp _ | .sknp _ | .ldF _ => true
    | _ => false

/-- The PC after an instruction that completes (40_execution_cycle.md R128, 42_control_flow.md R160 to R167). -/
def Sys2Proof.Machine.nextPc (s : State) : Instr → Nat
  | .ret         => (s.observe (.stack (Fin.ofNat 16 (s.sp.val - 1))) + 2) % 65536
  | .jp nnn      => nnn.toNat
  | .call nnn    => nnn.toNat
  | .jpV0 nnn    => s.V 0 + nnn.toNat
  | .seImm x kk  => (s.pc.toNat + if s.V x = kk.toNat then 4 else 2) % 65536
  | .sneImm x kk => (s.pc.toNat + if s.V x = kk.toNat then 2 else 4) % 65536
  | .seReg x y   => (s.pc.toNat + if s.V x = s.V y then 4 else 2) % 65536
  | .sneReg x y  => (s.pc.toNat + if s.V x = s.V y then 2 else 4) % 65536
  | .skp x       => (s.pc.toNat + if s.observe (.key (Fin.ofNat 16 (s.V x))) = 1 then 4 else 2) % 65536
  | .sknp x      => (s.pc.toNat + if s.observe (.key (Fin.ofNat 16 (s.V x))) = 1 then 2 else 4) % 65536
  | .ldVxK _     => if ∃ k : Fin 16, s.observe (.key k) = 1 then (s.pc.toNat + 2) % 65536 else s.pc.toNat
  | .cls | .ldImm _ _ | .addImm _ _ | .ldReg _ _ | .orReg _ _ | .andReg _ _ | .xorReg _ _ | .addReg _ _ | .sub _ _
  | .shr _ _ | .subn _ _ | .shl _ _ | .ldI _ | .rnd _ _ | .drw _ _ _ | .ldVxDt _ | .ldDtVx _ | .ldStVx _ | .addI _
  | .ldF _ | .ldB _ | .ldMemVx _ | .ldVxMem _ => (s.pc.toNat + 2) % 65536

/-- Which instruction may raise which code (60_exceptions.md R281). -/
def Sys2Proof.Machine.mayRaise : Instr → FaultCode → Bool
  | .call _, c => c == .stackOverflow
  | .ret, c => c == .stackUnderflow
  | .drw _ _ _, c => c == .memoryOutOfRange
  | .ldB _, c | .ldMemVx _, c | .ldVxMem _, c => c == .memoryOutOfRange || c == .reservedAccess
  | .skp _, c | .sknp _, c => c == .keyIndexOutOfRange
  | .ldF _, c => c == .fontDigitOutOfRange
  | .cls, _ | .jp _, _ | .seImm _ _, _ | .sneImm _ _, _ | .seReg _ _, _ | .ldImm _ _, _ | .addImm _ _, _
  | .ldReg _ _, _ | .orReg _ _, _ | .andReg _ _, _ | .xorReg _ _, _ | .addReg _ _, _ | .sub _ _, _ | .shr _ _, _
  | .subn _ _, _ | .shl _ _, _ | .sneReg _ _, _ | .ldI _, _ | .jpV0 _, _ | .rnd _ _, _ | .ldVxDt _, _ | .ldVxK _, _
  | .ldDtVx _, _ | .ldStVx _, _ | .addI _, _ => false

/-! ### Display (41_display.md) -/

/-- R140: CLS clears all 2048 cells and advances PC by 2; nothing else changes. -/
def Obligations.ClsClearsFramebuffer : Prop :=
  decodeWord 0x00E0 = some .cls ∧
  ∀ s : State, ∃ t, exec .cls s = .next t ∧
    Effect s t fun e => match e with
      | .cell _ _ => some 0
      | e         => lastWrite [pcPlus s 2] e

/-- R141: DRW XORs the sprite into the framebuffer and sets VF to the collision bit; a sprite byte at 0x1000 or above
faults with the lowest such address and draws nothing. -/
def Obligations.DrwXorsSpriteOrFaults : Prop :=
  ∀ (x y : Reg) (n : Fin 16), decodeWord (wordXYN 0xD (Reg.bits x) (Reg.bits y) (Reg.bits n)) = some (.drw x y n) ∧
  ∀ s : State, s.params.wf →
    ((∀ r : Fin 16, r < n → s.i.toNat + r.val < 0x1000) →
      ∃ t, exec (.drw x y n) s = .next t ∧
        Effect s t fun e => match e with
          | .cell cx cy => some ((s.observe (.cell cx cy) + bit (spriteLights s x y n cx cy = true)) % 2)
          | e => lastWrite [(.reg VF, bit (∃ cx cy, spriteLights s x y n cx cy = true ∧ s.observe (.cell cx cy) = 1)),
              pcPlus s 2] e) ∧
    (∀ r : Fin 16, r < n → 0x1000 ≤ s.i.toNat + r.val → (∀ q : Fin 16, q < r → s.i.toNat + q.val < 0x1000) →
      ∃ t, exec (.drw x y n) s = .next t ∧ Effect s t (lastWrite (faultWrites s 5 (s.i.toNat + r.val))))

/-- §8 idempotence (95_test_vectors.md E5), in general: drawing a sprite twice at the same place, by registers other
than VF, restores every cell, and the second draw reports a collision exactly when the first one lit a dark cell. -/
def Obligations.DrwTwiceRestoresCells : Prop :=
  ∀ (x y : Reg) (n : Fin 16) (s t u : State), x ≠ VF → y ≠ VF → s.params.wf →
    (∀ r : Fin 16, r < n → s.i.toNat + r.val < 0x1000) →
    exec (.drw x y n) s = .next t → exec (.drw x y n) t = .next u →
      (∀ cx cy, u.observe (.cell cx cy) = s.observe (.cell cx cy)) ∧
      (u.V VF = 1 ↔ ∃ cx cy, s.observe (.cell cx cy) = 0 ∧ t.observe (.cell cx cy) = 1)

/-- R142: only a STEP that runs CLS or DRW, and RESET, which clears every cell, change a cell of the framebuffer, and DRW
alone reads one: what another instruction does to everything else is the same over any other framebuffer. -/
def Obligations.OnlyClsDrwAndResetChangeCells : Prop :=
  (∀ (tr : Transaction) (s t : State) (cx : Fin 64) (cy : Fin 32), transact tr s = .next t →
    t.observe (.cell cx cy) ≠ s.observe (.cell cx cy) →
      tr = .reset ∨ ∃ r, tr = .step r ∧
        (s.fetchDecode = .ok .cls ∨ ∃ x y n, s.fetchDecode = .ok (.drw x y n))) ∧
  (∀ (s : State) (cx : Fin 64) (cy : Fin 32), ∃ t, transact .reset s = .next t ∧ t.observe (.cell cx cy) = 0) ∧
  (∀ (i : Instr) (s t : State) (f : FrameBuffer), (∀ x y n, i ≠ .drw x y n) → exec i s = .next t →
    ∃ g, exec i { s with fb := f } = .next { t with fb := g })

/-! ### Control flow (42_control_flow.md) -/

/-- R160: RET pops the call site and resumes after it; on an empty stack it faults StackUnderflow. The last clause is the
sentence of R160 that the spec marks as its own inference ("`ret` is always the address of a 2nnn that executed, so
`0x200 <= ret <= 0xFFE` and `ret + 2 <= 0x1000`. It never wraps.", [derived: from rule R162 and R122]): its bounds, in every
state of the invariant. -/
def Obligations.RetPopsCallSiteOrFaults : Prop :=
  decodeWord 0x00EE = some .ret ∧
  ∀ s : State,
    (∀ j : Fin 16, s.observe .sp = j.val + 1 →
      ∃ t, exec .ret s = .next t ∧
        Effect s t (lastWrite [(.sp, j.val), (.pc, (s.observe (.stack j) + 2) % 65536)])) ∧
    (s.observe .sp = 0 → ∃ t, exec .ret s = .next t ∧ Effect s t (lastWrite (faultWrites s 3 0))) ∧
    (∀ j : Fin 16, s.Inv → s.observe .sp = j.val + 1 →
      0x200 ≤ s.observe (.stack j) ∧ s.observe (.stack j) + 2 ≤ 0x1000)

/-- R161 and R167: JP and JP V0 load PC with the target, an exact sum that is neither masked nor checked. -/
def Obligations.JumpsLoadPc : Prop :=
  ∀ nnn : Addr, decodeWord (wordNNN 0x1 nnn) = some (.jp nnn) ∧ decodeWord (wordNNN 0xB nnn) = some (.jpV0 nnn) ∧
  ∀ s : State,
    (∃ t, exec (.jp nnn) s = .next t ∧ Effect s t (lastWrite [(.pc, nnn.toNat)])) ∧
    (∃ t, exec (.jpV0 nnn) s = .next t ∧ Effect s t (lastWrite [(.pc, s.V 0 + nnn.toNat)]))

/-- R162: CALL pushes its own address and jumps; at depth 16 it faults StackOverflow. -/
def Obligations.CallPushesOwnAddressOrFaults : Prop :=
  ∀ nnn : Addr, decodeWord (wordNNN 0x2 nnn) = some (.call nnn) ∧
  ∀ s : State,
    (∀ j : Fin 16, s.observe .sp = j.val →
      ∃ t, exec (.call nnn) s = .next t ∧
        Effect s t (lastWrite [(.stack j, s.pc.toNat), (.sp, j.val + 1), (.pc, nnn.toNat)])) ∧
    (s.observe .sp = 16 → ∃ t, exec (.call nnn) s = .next t ∧ Effect s t (lastWrite (faultWrites s 2 0)))

/-- R163 and R164: the skips on an immediate. -/
def Obligations.ImmediateSkipsCompare : Prop :=
  ∀ (x : Reg) (kk : Byte), decodeWord (wordXKK 0x3 (Reg.bits x) kk) = some (.seImm x kk) ∧
    decodeWord (wordXKK 0x4 (Reg.bits x) kk) = some (.sneImm x kk) ∧
  ∀ s : State,
    (∃ t, exec (.seImm x kk) s = .next t ∧ Effect s t (lastWrite [pcPlus s (if s.V x = kk.toNat then 4 else 2)])) ∧
    (∃ t, exec (.sneImm x kk) s = .next t ∧ Effect s t (lastWrite [pcPlus s (if s.V x ≠ kk.toNat then 4 else 2)]))

/-- R165 and R166: the skips on two registers. -/
def Obligations.RegisterSkipsCompare : Prop :=
  ∀ x y : Reg, decodeWord (wordXYN 0x5 (Reg.bits x) (Reg.bits y) 0) = some (.seReg x y) ∧
    decodeWord (wordXYN 0x9 (Reg.bits x) (Reg.bits y) 0) = some (.sneReg x y) ∧
  ∀ s : State,
    (∃ t, exec (.seReg x y) s = .next t ∧ Effect s t (lastWrite [pcPlus s (if s.V x = s.V y then 4 else 2)])) ∧
    (∃ t, exec (.sneReg x y) s = .next t ∧ Effect s t (lastWrite [pcPlus s (if s.V x ≠ s.V y then 4 else 2)]))

/-- R170 and §8: a CALL whose target holds RET comes back after the CALL, two STEPs later, at the same depth. -/
def Obligations.CallThenRetResumesAfterCall : Prop :=
  ∀ (s : State) (nnn : Addr), s.params.wf → s.fault.code = .none → s.observe .sp < 16 →
    s.fetchDecode = .ok (.call nnn) → ({ s with pc := zextAddr nnn } : State).fetchDecode = .ok .ret →
    ∃ t, Sys2Proof.core.run 2 s = .next t ∧
      t.observe .pc = s.pc.toNat + 2 ∧ t.observe .sp = s.observe .sp ∧
      (∀ j : Fin 16, j.val < s.sp.val → t.observe (.stack j) = s.observe (.stack j))

/-- R161, R162, R167 and R169: a jump or a call completes whatever its target; a target that cannot be fetched from faults
at the next STEP, with PC the target. -/
def Obligations.TransferCompletesThenFetchFaults : Prop :=
  ∀ (s : State) (i : Instr) (target : Nat), s.fault.code = .none → s.fetchDecode = .ok i →
    (i = .jp (BitVec.ofNat 12 target) ∧ target < 4096) ∨
      (i = .call (BitVec.ofNat 12 target) ∧ target < 4096 ∧ s.observe .sp < 16) ∨
      (∃ nnn, i = .jpV0 nnn ∧ target = s.V 0 + nnn.toNat) →
    ∃ t, step s = .next t ∧ t.fault.code = .none ∧ t.observe .pc = target ∧
      (¬ InProgram s.params target →
        ∃ u, step t = .next u ∧ Effect t u (lastWrite (faultWrites t 4 target))) ∧
      (InProgram s.params target → ¬ InProgram s.params (target + 1) →
        ∃ u, step t = .next u ∧ Effect t u (lastWrite (faultWrites t 4 (target + 1))))

/-! ### Registers and ALU (43_alu.md) -/

/-- R190 and R191: load and add immediate; the add sets no flag. -/
def Obligations.ImmediateLoadAndAdd : Prop :=
  ∀ (x : Reg) (kk : Byte), decodeWord (wordXKK 0x6 (Reg.bits x) kk) = some (.ldImm x kk) ∧
    decodeWord (wordXKK 0x7 (Reg.bits x) kk) = some (.addImm x kk) ∧
  ∀ s : State,
    (∃ t, exec (.ldImm x kk) s = .next t ∧ Effect s t (lastWrite [(.reg x, kk.toNat), pcPlus s 2])) ∧
    (∃ t, exec (.addImm x kk) s = .next t ∧
      Effect s t (lastWrite [(.reg x, (s.V x + kk.toNat) % 256), pcPlus s 2]))

/-- R192 to R195: copy and the bitwise operations; none writes VF as a flag. -/
def Obligations.MoveAndLogicLeaveFlag : Prop :=
  ∀ x y : Reg, decodeWord (wordXYN 0x8 (Reg.bits x) (Reg.bits y) 0) = some (.ldReg x y) ∧
    decodeWord (wordXYN 0x8 (Reg.bits x) (Reg.bits y) 1) = some (.orReg x y) ∧
    decodeWord (wordXYN 0x8 (Reg.bits x) (Reg.bits y) 2) = some (.andReg x y) ∧
    decodeWord (wordXYN 0x8 (Reg.bits x) (Reg.bits y) 3) = some (.xorReg x y) ∧
  ∀ s : State,
    (∃ t, exec (.ldReg x y) s = .next t ∧ Effect s t (lastWrite [(.reg x, s.V y), pcPlus s 2])) ∧
    (∃ t, exec (.orReg x y) s = .next t ∧ Effect s t (lastWrite [(.reg x, s.V x ||| s.V y), pcPlus s 2])) ∧
    (∃ t, exec (.andReg x y) s = .next t ∧ Effect s t (lastWrite [(.reg x, s.V x &&& s.V y), pcPlus s 2])) ∧
    (∃ t, exec (.xorReg x y) s = .next t ∧ Effect s t (lastWrite [(.reg x, s.V x ^^^ s.V y), pcPlus s 2]))

/-- R196: add with carry into VF, the result written after the flag. -/
def Obligations.AddSetsCarryThenResult : Prop :=
  ∀ x y : Reg, decodeWord (wordXYN 0x8 (Reg.bits x) (Reg.bits y) 4) = some (.addReg x y) ∧
  ∀ s : State, ∃ t, exec (.addReg x y) s = .next t ∧
    Effect s t (lastWrite [(.reg VF, bit (s.V x + s.V y > 255)), (.reg x, (s.V x + s.V y) % 256), pcPlus s 2])

/-- R197 and R199: the subtractions; VF is 1 only when the minuend is strictly greater. -/
def Obligations.SubtractionsSetStrictFlag : Prop :=
  ∀ x y : Reg, decodeWord (wordXYN 0x8 (Reg.bits x) (Reg.bits y) 5) = some (.sub x y) ∧
    decodeWord (wordXYN 0x8 (Reg.bits x) (Reg.bits y) 7) = some (.subn x y) ∧
  ∀ s : State,
    (∃ t, exec (.sub x y) s = .next t ∧
      Effect s t (lastWrite [(.reg VF, bit (s.V x > s.V y)), (.reg x, (s.V x + 256 - s.V y) % 256), pcPlus s 2])) ∧
    (∃ t, exec (.subn x y) s = .next t ∧
      Effect s t (lastWrite [(.reg VF, bit (s.V y > s.V x)), (.reg x, (s.V y + 256 - s.V x) % 256), pcPlus s 2]))

/-- R198 and R200: the shifts by one bit; VF is the bit shifted out, and y is not read. -/
def Obligations.ShiftsCaptureShiftedBit : Prop :=
  ∀ x y : Reg, decodeWord (wordXYN 0x8 (Reg.bits x) (Reg.bits y) 6) = some (.shr x y) ∧
    decodeWord (wordXYN 0x8 (Reg.bits x) (Reg.bits y) 0xE) = some (.shl x y) ∧
  ∀ s : State,
    (∃ t, exec (.shr x y) s = .next t ∧
      Effect s t (lastWrite [(.reg VF, s.V x % 2), (.reg x, s.V x / 2), pcPlus s 2])) ∧
    (∃ t, exec (.shl x y) s = .next t ∧
      Effect s t (lastWrite [(.reg VF, s.V x / 128), (.reg x, s.V x * 2 % 256), pcPlus s 2]))

/-- R201: a STEP with draw RAND that runs RND writes RAND & kk, whatever the draw, and changes nothing else but PC. -/
def Obligations.StepRndMasksRand : Prop :=
  ∀ (x : Reg) (kk : Byte), decodeWord (wordXKK 0xC (Reg.bits x) kk) = some (.rnd x kk) ∧
  ∀ (rand : Byte) (s : State), s.fault.code = .none → s.fetchDecode = .ok (.rnd x kk) →
    ∃ t, stepRand rand s = .next t ∧ Effect s t (lastWrite [(.reg x, rand.toNat &&& kk.toNat), pcPlus s 2])

/-- The model's form of RAND (log 2, a DESIGN CHOICE of the model): RND uses the oldest supplied draw, and without one
the free value `Config.freeRand`, of which nothing is assumed. -/
def Obligations.RndUsesSuppliedOrFreeDraw : Prop :=
  ∀ (x : Reg) (kk : Byte) (s : State),
    (∀ (r : Byte) (rest : List Byte), s.draws = r :: rest →
      ∃ t, exec (.rnd x kk) s = .next t ∧ Writes s t (lastWrite [(.reg x, r.toNat &&& kk.toNat), pcPlus s 2]) ∧
        t.params = s.params ∧ t.draws = rest ∧ t.drawCount = s.drawCount) ∧
    (s.draws = [] →
      ∃ t, exec (.rnd x kk) s = .next t ∧
        Writes s t (lastWrite [(.reg x, (Config.freeRand s.drawCount).toNat &&& kk.toNat), pcPlus s 2]) ∧
        t.params = s.params ∧ t.draws = [] ∧ t.drawCount = s.drawCount + 1)

/-- R131: RAND is read by Cxkk alone; a STEP that runs anything else, faults, waits or does nothing ignores it. -/
def Obligations.OnlyRndReadsTheDraw : Prop :=
  ∀ (s : State) (r q : Byte), (s.fault.code = .none → ∀ x kk, s.fetchDecode ≠ .ok (.rnd x kk)) →
    stepRand r s = stepRand q s

/-! ### Index register and memory (44_index_memory.md) -/

/-- R230 and R231: loading I, and adding to it modulo 65536 with no flag and no mask. -/
def Obligations.IndexLoadAndAdd : Prop :=
  (∀ nnn : Addr, decodeWord (wordNNN 0xA nnn) = some (.ldI nnn)) ∧
  (∀ x : Reg, decodeWord (wordXKK 0xF (Reg.bits x) 0x1E) = some (.addI x)) ∧
  ∀ s : State,
    (∀ nnn : Addr, ∃ t, exec (.ldI nnn) s = .next t ∧ Effect s t (lastWrite [(.i, nnn.toNat), pcPlus s 2])) ∧
    (∀ x : Reg, ∃ t, exec (.addI x) s = .next t ∧
      Effect s t (lastWrite [(.i, (s.observe .i + s.V x) % 65536), pcPlus s 2]))

/-- R232: Fx29 points I at the digit's sprite, and faults FontDigitOutOfRange above 0xF. -/
def Obligations.FontAddressOrFault : Prop :=
  ∀ x : Reg, decodeWord (wordXKK 0xF (Reg.bits x) 0x29) = some (.ldF x) ∧
  ∀ s : State,
    (s.V x ≤ 0xF → ∃ t, exec (.ldF x) s = .next t ∧ Effect s t (lastWrite [(.i, 5 * s.V x), pcPlus s 2])) ∧
    (0xF < s.V x → ∃ t, exec (.ldF x) s = .next t ∧ Effect s t (lastWrite (faultWrites s 8 (s.V x))))

/-- R233: Fx33 stores the three decimal digits at I, I+1, I+2, or stores nothing and faults with the lowest address
outside the program region. -/
def Obligations.BcdStoresDigitsOrFaults : Prop :=
  ∀ x : Reg, decodeWord (wordXKK 0xF (Reg.bits x) 0x33) = some (.ldB x) ∧
  ∀ s : State, s.params.wf →
    ((∀ k : Fin 3, InProgram s.params (s.i.toNat + k.val)) →
      ∃ t, exec (.ldB x) s = .next t ∧
        Effect s t (lastWrite [(.mem s.i.toNat, s.V x / 100), (.mem (s.i.toNat + 1), s.V x / 10 % 10),
          (.mem (s.i.toNat + 2), s.V x % 10), pcPlus s 2])) ∧
    (∀ k : Fin 3, ¬ InProgram s.params (s.i.toNat + k.val) →
      (∀ j : Fin 3, j < k → InProgram s.params (s.i.toNat + j.val)) →
      ∃ t, exec (.ldB x) s = .next t ∧
        Effect s t (lastWrite (faultWrites s (if 0x1000 ≤ s.i.toNat + k.val then 5 else 6) (s.i.toNat + k.val))))

/-- R234: Fx55 stores V0..Vx at I..I+x and leaves I, or stores nothing and faults with the lowest address outside the
program region. -/
def Obligations.StoreBlockOrFaults : Prop :=
  ∀ x : Reg, decodeWord (wordXKK 0xF (Reg.bits x) 0x55) = some (.ldMemVx x) ∧
  ∀ s : State, s.params.wf →
    ((∀ k : Reg, k ≤ x → InProgram s.params (s.i.toNat + k.val)) →
      ∃ t, exec (.ldMemVx x) s = .next t ∧
        Effect s t fun e => match e with
          | .mem a =>
            if s.i.toNat ≤ a ∧ a ≤ s.i.toNat + x.val then some (s.V (Fin.ofNat 16 (a - s.i.toNat))) else none
          | e => lastWrite [pcPlus s 2] e) ∧
    (∀ k : Reg, k ≤ x → ¬ InProgram s.params (s.i.toNat + k.val) →
      (∀ j : Reg, j < k → InProgram s.params (s.i.toNat + j.val)) →
      ∃ t, exec (.ldMemVx x) s = .next t ∧
        Effect s t (lastWrite (faultWrites s (if 0x1000 ≤ s.i.toNat + k.val then 5 else 6) (s.i.toNat + k.val))))

/-- R235: Fx65 loads V0..Vx from I..I+x and leaves I, or loads nothing and faults with the lowest address outside the
program region. -/
def Obligations.LoadBlockOrFaults : Prop :=
  ∀ x : Reg, decodeWord (wordXKK 0xF (Reg.bits x) 0x65) = some (.ldVxMem x) ∧
  ∀ s : State, s.params.wf →
    ((∀ k : Reg, k ≤ x → InProgram s.params (s.i.toNat + k.val)) →
      ∃ t, exec (.ldVxMem x) s = .next t ∧
        Effect s t fun e => match e with
          | .reg k => if k ≤ x then some (s.observe (.mem (s.i.toNat + k.val))) else none
          | e => lastWrite [pcPlus s 2] e) ∧
    (∀ k : Reg, k ≤ x → ¬ InProgram s.params (s.i.toNat + k.val) →
      (∀ j : Reg, j < k → InProgram s.params (s.i.toNat + j.val)) →
      ∃ t, exec (.ldVxMem x) s = .next t ∧
        Effect s t (lastWrite (faultWrites s (if 0x1000 ≤ s.i.toNat + k.val then 5 else 6) (s.i.toNat + k.val))))

/-- §8 round trip (95_test_vectors.md E9): storing V0..Vx and loading back from the same I, whatever the registers hold
in between, gives the stored values. -/
def Obligations.StoreThenLoadRestoresRegisters : Prop :=
  ∀ (x : Reg) (s t u : State) (v : Vector Byte 16),
    (∀ k : Reg, k ≤ x → InProgram s.params (s.i.toNat + k.val)) →
    exec (.ldMemVx x) s = .next t → exec (.ldVxMem x) { t with v := v } = .next u →
      (∀ k : Reg, k ≤ x → u.V k = s.V k) ∧ (∀ k : Reg, x < k → u.observe (.reg k) = v[k].toNat) ∧
      u.observe .i = s.observe .i

/-- R76 and R67: bytes stored by Fx55 are the instruction word of the next fetch there, the byte at the lower address
the high one, from an odd or an even address. -/
def Obligations.StoredBytesAreFetchedNext : Prop :=
  ∀ (x k : Reg) (s t : State) (p : Word), k < x →
    (∀ j : Reg, j ≤ x → InProgram s.params (s.i.toNat + j.val)) → p.toNat = s.i.toNat + k.val →
    exec (.ldMemVx x) s = .next t →
      ({ t with pc := p } : State).fetchFailure = none ∧
      (({ t with pc := p } : State).fetchWord).toNat = s.V k * 256 + s.V (k + 1)

/-! ### Keypad and timers (45_keypad_timers.md) -/

/-- R260 and R261: the key skips, and their fault above 0xF. -/
def Obligations.KeySkipsOrFault : Prop :=
  ∀ x : Reg, decodeWord (wordXKK 0xE (Reg.bits x) 0x9E) = some (.skp x) ∧
    decodeWord (wordXKK 0xE (Reg.bits x) 0xA1) = some (.sknp x) ∧
  ∀ s : State,
    (∀ k : Fin 16, s.V x = k.val →
      (∃ t, exec (.skp x) s = .next t ∧
        Effect s t (lastWrite [pcPlus s (if s.observe (.key k) = 1 then 4 else 2)])) ∧
      (∃ t, exec (.sknp x) s = .next t ∧
        Effect s t (lastWrite [pcPlus s (if s.observe (.key k) = 0 then 4 else 2)]))) ∧
    (0xF < s.V x →
      (∃ t, exec (.skp x) s = .next t ∧ Effect s t (lastWrite (faultWrites s 7 (s.V x)))) ∧
      (∃ t, exec (.sknp x) s = .next t ∧ Effect s t (lastWrite (faultWrites s 7 (s.V x)))))

/-- R262, R264 and R265: reading DT, writing DT and writing ST. -/
def Obligations.TimerMoves : Prop :=
  ∀ x : Reg, decodeWord (wordXKK 0xF (Reg.bits x) 0x07) = some (.ldVxDt x) ∧
    decodeWord (wordXKK 0xF (Reg.bits x) 0x15) = some (.ldDtVx x) ∧
    decodeWord (wordXKK 0xF (Reg.bits x) 0x18) = some (.ldStVx x) ∧
  ∀ s : State,
    (∃ t, exec (.ldVxDt x) s = .next t ∧ Effect s t (lastWrite [(.reg x, s.observe .dt), pcPlus s 2])) ∧
    (∃ t, exec (.ldDtVx x) s = .next t ∧ Effect s t (lastWrite [(.dt, s.V x), pcPlus s 2])) ∧
    (∃ t, exec (.ldStVx x) s = .next t ∧ Effect s t (lastWrite [(.st, s.V x), pcPlus s 2]))

/-- R263: Fx0A stores the smallest key that is down, and while none is down changes nothing. -/
def Obligations.WaitKeyStoresSmallestKey : Prop :=
  ∀ x : Reg, decodeWord (wordXKK 0xF (Reg.bits x) 0x0A) = some (.ldVxK x) ∧
  ∀ s : State,
    (∀ k : Fin 16, s.observe (.key k) = 1 → (∀ j : Fin 16, j < k → s.observe (.key j) = 0) →
      ∃ t, exec (.ldVxK x) s = .next t ∧ Effect s t (lastWrite [(.reg x, k.val), pcPlus s 2])) ∧
    ((∀ k : Fin 16, s.observe (.key k) = 0) → exec (.ldVxK x) s = .next s)

/-- R38: no instruction reads ST. Two states that differ only in ST are carried by one schedule to states that differ
only in ST. -/
def Obligations.NoRunDependsOnSoundTimer : Prop :=
  ∀ (sched : List Transaction) (s t s' : State), SameButSt s t → runSchedule sched s = .next s' →
    ∃ t', runSchedule sched t = .next t' ∧ SameButSt s' t'

/-- R41: a stack entry at index SP or above cannot be observed by any instruction, on any schedule. -/
def Obligations.NoRunDependsOnStaleStack : Prop :=
  ∀ (sched : List Transaction) (s t s' : State), SameButStaleStack s t → runSchedule sched s = .next s' →
    ∃ t', runSchedule sched t = .next t' ∧ SameButStaleStack s' t'

/-! ### The step and the program counter (40_execution_cycle.md) -/

/-- R122 and R132: the whole STEP, its checks in order. -/
def Obligations.StepFetchesDecodesExecutes : Prop :=
  ∀ s : State,
    (s.fault.code ≠ .none → step s = .next s) ∧
    (s.fault.code = .none →
      (¬ InProgram s.params s.pc.toNat →
        ∃ t, step s = .next t ∧ Effect s t (lastWrite (faultWrites s 4 s.pc.toNat))) ∧
      (InProgram s.params s.pc.toNat → ¬ InProgram s.params (s.pc.toNat + 1) →
        ∃ t, step s = .next t ∧ Effect s t (lastWrite (faultWrites s 4 (s.pc.toNat + 1)))) ∧
      (InProgram s.params s.pc.toNat → InProgram s.params (s.pc.toNat + 1) →
        ∀ w : Word, w.toNat = s.observe (.mem s.pc.toNat) * 256 + s.observe (.mem (s.pc.toNat + 1)) →
          (decodeWord w = none → ∃ t, step s = .next t ∧ Effect s t (lastWrite (faultWrites s 1 w.toNat))) ∧
          (∀ i, decodeWord w = some i → step s = exec i s)))

/-- A STEP runs the decoded instruction: step is exec of what the two bytes at PC decode to, with nothing added. -/
def Obligations.StepIsExecOfDecodedBytes : Prop :=
  ∀ (s : State) (i : Instr) (rest : List Byte), s.fault.code = .none →
    InProgram s.params s.pc.toNat → InProgram s.params (s.pc.toNat + 1) →
    decode [s.readByte s.pc.toNat, s.readByte (s.pc.toNat + 1)] = .ok (i, rest) →
      rest = [] ∧ step s = exec i s

/-- Every STEP has a next state: no instruction, operand or state makes the machine stop. That a fault is a next state and
not an outcome of its own is the model's reading of R282 and R283 (log 1, DEDUCED). -/
def Obligations.EveryStepHasNextState : Prop :=
  (∀ (i : Instr) (s : State), ∃ t, exec i s = .next t) ∧ ∀ s : State, ∃ t, step s = .next t

/-- R126: an instruction changes only the elements its rule writes; every other register, flag, byte of memory, stack
entry, timer, key and cell keeps its value, in every state and whether or not it faults. -/
def Obligations.TableRowIsCompleteEffect : Prop :=
  ∀ (i : Instr) (s t : State) (e : Element), exec i s = .next t → touches s i e = false → t.observe e = s.observe e

/-- R128: every instruction that completes sets PC in the one way the table gives, and one that faults leaves PC. -/
def Obligations.PcUpdateIsTheTables : Prop :=
  ∀ (i : Instr) (s t : State), s.fault.code = .none → exec i s = .next t →
    (t.fault.code = .none → t.observe .pc = nextPc s i) ∧ (t.fault.code ≠ .none → t.observe .pc = s.observe .pc)

/-- R129, the whole of which the spec marks as its own inference ([derived: from rule R122, rule R128 and
42_control_flow.md rules R160 to R167]): from a state of the invariant no PC update wraps, and PC stays at most 0x10FE; a
PC that cannot be fetched from is held until the next STEP's fetch check faults. -/
def Obligations.PcNeverWraps : Prop :=
  ∀ (s t : State) (i : Instr), s.Inv → s.fault.code = .none → s.fetchDecode = .ok i → step s = .next t →
    s.pc.toNat ≤ 0xFFE ∧ t.observe .pc ≤ 0x10FE ∧
    (t.fault.code = .none → t.observe .pc = s.pc.toNat ∨ t.observe .pc = s.pc.toNat + 2 ∨
      t.observe .pc = s.pc.toNat + 4 ∨ (∃ nnn, i = .jp nnn ∧ t.observe .pc = nnn.toNat) ∨
      (∃ nnn, i = .call nnn ∧ t.observe .pc = nnn.toNat) ∨
      (∃ nnn, i = .jpV0 nnn ∧ t.observe .pc = s.V 0 + nnn.toNat) ∨
      (i = .ret ∧ 0 < s.sp.val ∧ t.observe .pc = s.observe (.stack (Fin.ofNat 16 (s.sp.val - 1))) + 2)) ∧
    (t.fault.code = .none → ¬ InProgram t.params t.pc.toNat →
      ∃ u, step t = .next u ∧ Effect t u (lastWrite (faultWrites t 4 t.pc.toNat)))

/-! ### Encoding (30_encoding.md) -/

/-- The decoder reads every operand of every instruction back from its encoding. -/
def Obligations.DecodeInvertsEncode : Prop := ∀ i : Instr, decodeWord (encode i) = some i

/-- Each legal word is the encoding of what it decodes to, so no bit of a legal word is dropped (R98). -/
def Obligations.EncodeInvertsDecode : Prop := ∀ (w : Word) (i : Instr), decodeWord w = some i → encode i = w

/-- R95 against the opcode table: a word decodes exactly when a row of the table admits it, to the instruction of that
row, and no two rows admit one word. -/
def Obligations.DecodeAgreesWithOpcodeTable : Prop :=
  (∀ w : Word, (decodeWord w).isSome = wordLegal w) ∧
  (∀ (w : Word) (i : Instr), decodeWord w = some i → i.row ∈ opcodeRows ∧ i.row.admits w = true) ∧
  (∀ (w : Word) (p q : OpRow), p ∈ opcodeRows → q ∈ opcodeRows → p.admits w = true → q.admits w = true → p = q)

/-- R96: which words are illegal, family by family. -/
def Obligations.IllegalWordsByFamily : Prop :=
  ∀ w : Word, decodeWord w = none ↔
    (w.toNat / 4096 = 0 ∧ w.toNat ≠ 0x00E0 ∧ w.toNat ≠ 0x00EE) ∨
    ((w.toNat / 4096 = 5 ∨ w.toNat / 4096 = 9) ∧ w.toNat % 16 ≠ 0) ∨
    (w.toNat / 4096 = 8 ∧ w.toNat % 16 ∈ [0x8, 0x9, 0xA, 0xB, 0xC, 0xD, 0xF]) ∨
    (w.toNat / 4096 = 0xE ∧ w.toNat % 256 ∉ [0x9E, 0xA1]) ∨
    (w.toNat / 4096 = 0xF ∧ w.toNat % 256 ∉ [0x07, 0x0A, 0x15, 0x18, 0x1E, 0x29, 0x33, 0x55, 0x65])

/-- Words written out from the encodings of R94 decode to the instructions they stand for, and words outside do not. -/
def Obligations.WrittenOutWordsDecode : Prop :=
  decodeWord 0b0000000011100000#16 = some .cls ∧
  decodeWord 0b0010101010111100#16 = some (.call 0xABC) ∧
  decodeWord 0b0011010001000010#16 = some (.seImm 4 0x42) ∧
  decodeWord 0b1000111111100100#16 = some (.addReg 15 14) ∧
  decodeWord 0b1010001011110000#16 = some (.ldI 0x2F0) ∧
  decodeWord 0b1101000100100101#16 = some (.drw 1 2 5) ∧
  decodeWord 0b1110001110100001#16 = some (.sknp 3) ∧
  decodeWord 0b1111010100001010#16 = some (.ldVxK 5) ∧
  decodeWord 0b0000000100100011#16 = none ∧
  decodeWord 0b1000000000011000#16 = none

/-! ### Faults (60_exceptions.md) -/

/-- R282 and R130: the fault entry writes FAULT.code, FAULT.pc = PC and FAULT.info, and a STEP that faults makes it and
no other write. -/
def Obligations.FaultsArePrecise : Prop :=
  (∀ (s : State) (code : FaultCode) (info : Nat), info < 2 ^ 17 →
    Effect s (s.raise code info) (lastWrite (faultWrites s code.number.toNat info))) ∧
  ∀ s t : State, s.fault.code = .none → step s = .next t → t.fault.code ≠ .none →
    ∃ info, info < 2 ^ 17 ∧ t = s.raise t.fault.code info

/-- R281: an instruction raises only the code its row of the table gives. -/
def Obligations.InstructionsRaiseOnlyTheirCodes : Prop :=
  ∀ (i : Instr) (s t : State), s.fault.code = .none → exec i s = .next t →
    t.fault.code = .none ∨ mayRaise i t.fault.code = true

/-- R283: a faulted core's STEP changes nothing; without RESET no schedule changes anything but memory, keys and timers;
TICK, SET_KEYS, LOAD_ROM and the reads act as on a core that is not faulted; RESET clears FAULT. -/
def Obligations.FaultHoldsUntilReset : Prop :=
  ∀ s : State, s.fault.code ≠ .none →
    step s = .next s ∧
    (∀ (sched : List Transaction) (t : State), Transaction.reset ∉ sched → runSchedule sched s = .next t →
      t = { s with mem := t.mem, keys := t.keys, dt := t.dt, st := t.st }) ∧
    (∀ (tr : Transaction) (t : State), tr ≠ .reset → (∀ rand, tr ≠ .step rand) →
      transact tr { s with fault := .clear } = .next t → transact tr s = .next { t with fault := s.fault }) ∧
    ∃ t, transact .reset s = .next t ∧ t.fault = .clear

/-- R64: which access classes admit an address, and the fault of each that does not. -/
def Obligations.AdmissionByRegion : Prop :=
  ∀ (p : Params) (a : Nat), p.wf →
    (checkAddr p .fetch a = if InProgram p a then none else some (.fetchOutOfRange, a)) ∧
    (checkAddr p .sprite a = if a < 0x1000 then none else some (.memoryOutOfRange, a)) ∧
    (checkAddr p .block a =
      if InProgram p a then none else if 0x1000 ≤ a then some (.memoryOutOfRange, a) else some (.reservedAccess, a))

/-! ### Host transactions and reset (60_exceptions.md, 70_reset_and_hazards.md) -/

/-- R330 and R47: RESET leaves every element at its reset value, from any state, a faulted one included. Two clauses are the
model's: that RESET keeps the machine's settings (log 6, DESIGN CHOICE), and that an address of 0x1000 or more, which is no
memory, is read as 0 (log 11, DEDUCED). -/
def Obligations.ResetLeavesResetValues : Prop :=
  ∀ s : State, ∃ t, transact .reset s = .next t ∧ t.params = s.params ∧
    ∀ e : Element, t.observe e = match e with
      | .pc    => 0x200
      | .mem a => if h : a < 80 then (s.params.fontData[a]).toNat else 0
      | _      => 0

/-- The machine right after reset meets the invariant. -/
def Obligations.ResetMeetsInvariant : Prop := State.reset.Inv

/-- Every STEP keeps the invariant, from every state that meets it. -/
def Obligations.StepKeepsInvariant : Prop := ∀ s t : State, s.Inv → step s = .next t → t.Inv

/-- Every schedule of host transactions has a next state and keeps the invariant. -/
def Obligations.SchedulesKeepInvariant : Prop :=
  ∀ (sched : List Transaction) (s : State), s.Inv → ∃ t, runSchedule sched s = .next t ∧ t.Inv

/-- The reserved region keeps what RESET left in it, the font included, on every schedule. -/
def Obligations.ReservedMemoryKeepsResetBytes : Prop :=
  ∀ (sched : List Transaction) (s t : State) (a : Nat), s.Inv → runSchedule sched s = .next t →
    ¬ InProgram s.params a → t.observe (.mem a) = (resetCore s).observe (.mem a)

/-- R333: LOAD_ROM copies a ROM that fits to 0x200 on, and rejects one that does not with no partial load. -/
def Obligations.LoadRomCopiesOrRejects : Prop :=
  ∀ (bytes : List Byte) (s : State),
    (bytes.length ≤ s.params.programEnd - 0x200 →
      respond (.loadRom bytes) s = .ok ∧
      ∃ t, transact (.loadRom bytes) s = .next t ∧
        Effect s t fun e => match e with
          | .mem a => if 0x200 ≤ a then (bytes[a - 0x200]?).map BitVec.toNat else none
          | _      => none) ∧
    (s.params.programEnd - 0x200 < bytes.length →
      respond (.loadRom bytes) s = .romTooLarge ∧ transact (.loadRom bytes) s = .next s)

/-- R299: SET_KEYS sets the latch and nothing else, and between two SET_KEYS (or RESET) the latch is constant. -/
def Obligations.SetKeysAloneSetsLatch : Prop :=
  (∀ (keys : Vector Bool 16) (s : State), ∃ t, transact (.setKeys keys) s = .next t ∧
    Effect s t fun e => match e with
      | .key k => some (keys[k]).toNat
      | _      => none) ∧
  (∀ (sched : List Transaction) (s t : State), (∀ k, Transaction.setKeys k ∉ sched) → Transaction.reset ∉ sched →
    runSchedule sched s = .next t → ∀ k, t.observe (.key k) = s.observe (.key k))

/-- R293 and R296: n TICKs take both timers down by n and never below 0, in every control state, and change nothing
else. -/
def Obligations.TicksCountDownToZero : Prop :=
  ∀ (n : Nat) (s : State), ∃ t, runSchedule (List.replicate n .tick) s = .next t ∧
    Effect s t (lastWrite [(.dt, s.observe .dt - n), (.st, s.observe .st - n)])

/-- R300, R301 and R297: the reads answer FB, SOUND, FAULT and the listed elements of the state, and change nothing; and the
other rows of R297's table: what each transaction outputs, and its effect. -/
def Obligations.ReadsAnswerAndChangeNothing : Prop :=
  ∀ s : State,
    (transact .readFb s = .next s ∧ respond .readFb s = .fb s.fb) ∧
    (transact .readSound s = .next s ∧ respond .readSound s = .sound (decide (0 < s.observe .st))) ∧
    (transact .readFault s = .next s ∧ ∃ code pc info, respond .readFault s = .fault code pc info ∧
      code.toNat = s.observe .faultCode ∧ pc.toNat = s.observe .faultPc ∧ info.toNat = s.observe .faultInfo) ∧
    (transact .readState s = .next s ∧ ∃ r, respond .readState s = .state r ∧
      (∀ x : Reg, r.v[x].toNat = s.observe (.reg x)) ∧ r.i.toNat = s.observe .i ∧ r.pc.toNat = s.observe .pc ∧
      r.sp.val = s.observe .sp ∧ (∀ j : Fin 16, r.stack[j].toNat = s.observe (.stack j)) ∧ r.dt.toNat = s.observe .dt ∧
      r.st.toNat = s.observe .st ∧ (∀ k : Fin 16, r.keys[k].toNat = s.observe (.key k)) ∧
      ∀ a : Fin 0x1000, r.mem[a].toNat = s.observe (.mem a.val)) ∧
    (respond .reset s = .noOutput ∧ ∃ t, transact .reset s = .next t ∧
      ∀ e : Element, (∀ a, e = .mem a → a < 0x1000) → t.observe e = match e with
        | .pc    => 0x200
        | .mem a => if h : a < 80 then (s.params.fontData[a]).toNat else 0
        | _      => 0) ∧
    (∀ bytes : List Byte,
      (bytes.length ≤ s.params.programEnd - 0x200 →
        respond (.loadRom bytes) s = .ok ∧ ∃ t, transact (.loadRom bytes) s = .next t ∧
          Effect s t fun e => match e with
            | .mem a => if 0x200 ≤ a then (bytes[a - 0x200]?).map BitVec.toNat else none
            | _      => none) ∧
      (s.params.programEnd - 0x200 < bytes.length →
        respond (.loadRom bytes) s = .romTooLarge ∧ transact (.loadRom bytes) s = .next s)) ∧
    (∀ keys : Vector Bool 16, respond (.setKeys keys) s = .noOutput ∧ ∃ t, transact (.setKeys keys) s = .next t ∧
      Effect s t fun e => match e with
        | .key k => some (keys[k]).toNat
        | _      => none) ∧
    (respond .tick s = .noOutput ∧ ∃ t, transact .tick s = .next t ∧
      Effect s t (lastWrite [(.dt, s.observe .dt - 1), (.st, s.observe .st - 1)])) ∧
    (∀ rand : Byte, respond (.step rand) s = .noOutput ∧ ∃ t, transact (.step rand) s = .next t ∧
      (s.fault.code ≠ .none → t = s) ∧
      (∀ f, s.fault.code = .none → s.fetchDecode = .error f →
        Effect s t (lastWrite (faultWrites s f.1.number.toNat f.2))) ∧
      (∀ i, s.fault.code = .none → s.fetchDecode = .ok i → (∀ x kk, i ≠ .rnd x kk) → exec i s = .next t) ∧
      (∀ x kk, s.fault.code = .none → s.fetchDecode = .ok (.rnd x kk) →
        Effect s t (lastWrite [(.reg x, rand.toNat &&& kk.toNat), pcPlus s 2])))

/-- R334, R332 and R335: after RESET and LOAD_ROM the first STEP runs the ROM's first word. The draw of the STEP stands in
the model's own supply (log 2, DESIGN CHOICE). -/
def Obligations.BootRunsFirstWordOfRom : Prop :=
  ∀ (hi lo rand : Byte) (rest : List Byte) (s : State) (i : Instr), s.params.wf →
    rest.length + 2 ≤ s.params.programEnd - 0x200 → decodeWord (wordOfBytes hi lo) = some i →
    ∃ u, runSchedule [.reset, .loadRom (hi :: lo :: rest)] s = .next u ∧ u.pc = 0x200 ∧
      step { u with draws := [rand] } = exec i { u with draws := [rand] } ∧
      runSchedule [.reset, .loadRom (hi :: lo :: rest), .step rand] s = stepRand rand u

/-- R305: a run ends at the first state, the start state among them, with `FAULT.code != 0`, and at the first one reached
by a STEP whose word is a jump to itself that can be fetched (log 15, DEDUCED), whichever comes first; from there on STEPs
change nothing, so that a schedule of STEPs, TICKs, SET_KEYS and reads acts as the same schedule with its STEPs left out. -/
def Obligations.RunEndsAtFirstEnd : Prop :=
  (∀ (sched : List Transaction) (s : State) (e : EndOfRun), firstEnd sched s = some e ↔
    IsEndAt sched s e.kind e.after e.state ∧ ∀ k, k < e.after → ∀ kind t, ¬ IsEndAt sched s kind k t) ∧
  (∀ (sched later : List Transaction) (s : State) (e : EndOfRun), firstEnd sched s = some e →
    (∀ tr ∈ later, tr ≠ .reset ∧ ∀ bytes, tr ≠ .loadRom bytes) →
      runSchedule later e.state = runSchedule (later.filter (!·.isStep)) e.state)

/-- R305: in a state that meets the condition of a normal end or of an end in error, a STEP leaves the state
unchanged (log 15, DEDUCED). -/
def Obligations.EndedRunsStayEnded : Prop :=
  ∀ (s : State) (rand : Byte), s.endsNormally = true ∨ s.endsInError = true →
    step s = .next s ∧ transact (.step rand) s = .next s
end

