-- ==== Sys2Proof/Laws/Decode.lean ====
section
/-! SUPPORT. The fields of the three word formats (30_encoding.md R91, R92), and every word as its own digits. -/

namespace Sys2Proof

@[simp] theorem Reg.bits_toFin (x : Reg) : (Reg.bits x).toFin = x := rfl

@[simp] theorem Reg.bits_toNat (x : Reg) : (Reg.bits x).toNat = x.val := rfl

@[simp] theorem Reg.bits_of_toFin (b : BitVec 4) : Reg.bits b.toFin = b := rfl

/-! ### Numbers of the formats and of the fields -/

theorem append_toNat {m k : Nat} (a : BitVec m) (b : BitVec k) : (a ++ b).toNat = a.toNat * 2 ^ k + b.toNat := by
  rw [BitVec.toNat_append, Nat.shiftLeft_eq, ← Nat.shiftLeft_eq, ← Nat.shiftLeft_add_eq_or_of_lt b.isLt, Nat.shiftLeft_eq]

theorem wordXYN_toNat (op x y n : BitVec 4) :
    (wordXYN op x y n).toNat = op.toNat * 4096 + x.toNat * 256 + y.toNat * 16 + n.toNat := by
  simp only [wordXYN, append_toNat]; omega

theorem wordXKK_toNat (op x : BitVec 4) (kk : Byte) :
    (wordXKK op x kk).toNat = op.toNat * 4096 + x.toNat * 256 + kk.toNat := by
  simp only [wordXKK, append_toNat]; omega

theorem wordNNN_toNat (op : BitVec 4) (nnn : Addr) : (wordNNN op nnn).toNat = op.toNat * 4096 + nnn.toNat := by
  simp only [wordNNN, append_toNat]; omega

theorem wordOfBytes_toNat (hi lo : Byte) : (wordOfBytes hi lo).toNat = hi.toNat * 256 + lo.toNat := by
  simp only [wordOfBytes, append_toNat]; omega

section
variable (w : Word)

theorem opField_toNat : (opField w).toNat = w.toNat / 4096 := by
  have := w.isLt
  simp only [opField, BitVec.extractLsb'_toNat, Nat.shiftRight_eq_div_pow]; omega

theorem xField_toNat : (xField w).toNat = w.toNat / 256 % 16 := by
  simp only [xField, BitVec.extractLsb'_toNat, Nat.shiftRight_eq_div_pow]

theorem yField_toNat : (yField w).toNat = w.toNat / 16 % 16 := by
  simp only [yField, BitVec.extractLsb'_toNat, Nat.shiftRight_eq_div_pow]

theorem nField_toNat : (nField w).toNat = w.toNat % 16 := by
  simp only [nField, BitVec.extractLsb'_toNat, Nat.shiftRight_eq_div_pow]; omega

theorem kkField_toNat : (kkField w).toNat = w.toNat % 256 := by
  simp only [kkField, BitVec.extractLsb'_toNat, Nat.shiftRight_eq_div_pow]; omega

theorem nnnField_toNat : (nnnField w).toNat = w.toNat % 4096 := by
  simp only [nnnField, BitVec.extractLsb'_toNat, Nat.shiftRight_eq_div_pow]; omega

/-! ### Every word is made of its own fields -/

theorem wordXYN_fields : wordXYN (opField w) (xField w) (yField w) (nField w) = w := by
  have := w.isLt
  apply BitVec.eq_of_toNat_eq
  rw [wordXYN_toNat, opField_toNat, xField_toNat, yField_toNat, nField_toNat]; omega

theorem wordXKK_fields : wordXKK (opField w) (xField w) (kkField w) = w := by
  have := w.isLt
  apply BitVec.eq_of_toNat_eq
  rw [wordXKK_toNat, opField_toNat, xField_toNat, kkField_toNat]; omega

theorem wordNNN_fields : wordNNN (opField w) (nnnField w) = w := by
  have := w.isLt
  apply BitVec.eq_of_toNat_eq
  rw [wordNNN_toNat, opField_toNat, nnnField_toNat]; omega

/-- The two bytes of a word give it back, high byte first (20_memory.md R66). -/
theorem wordOfBytes_bytesOfWord : wordOfBytes (bytesOfWord w).1 (bytesOfWord w).2 = w := by
  have := w.isLt
  apply BitVec.eq_of_toNat_eq
  simp only [wordOfBytes_toNat, bytesOfWord, BitVec.extractLsb'_toNat, Nat.shiftRight_eq_div_pow]; omega

end

/-! ### The fields of each format -/

section
variable (op x y n : BitVec 4) (kk : Byte) (nnn : Addr)

@[simp] theorem opField_wordXYN : opField (wordXYN op x y n) = op := by
  apply BitVec.eq_of_toNat_eq; rw [opField_toNat, wordXYN_toNat]; omega

@[simp] theorem xField_wordXYN : xField (wordXYN op x y n) = x := by
  apply BitVec.eq_of_toNat_eq; rw [xField_toNat, wordXYN_toNat]; omega

@[simp] theorem yField_wordXYN : yField (wordXYN op x y n) = y := by
  apply BitVec.eq_of_toNat_eq; rw [yField_toNat, wordXYN_toNat]; omega

@[simp] theorem nField_wordXYN : nField (wordXYN op x y n) = n := by
  apply BitVec.eq_of_toNat_eq; rw [nField_toNat, wordXYN_toNat]; omega

@[simp] theorem opField_wordXKK : opField (wordXKK op x kk) = op := by
  apply BitVec.eq_of_toNat_eq; rw [opField_toNat, wordXKK_toNat]; omega

@[simp] theorem xField_wordXKK : xField (wordXKK op x kk) = x := by
  apply BitVec.eq_of_toNat_eq; rw [xField_toNat, wordXKK_toNat]; omega

@[simp] theorem kkField_wordXKK : kkField (wordXKK op x kk) = kk := by
  apply BitVec.eq_of_toNat_eq; rw [kkField_toNat, wordXKK_toNat]; omega

@[simp] theorem opField_wordNNN : opField (wordNNN op nnn) = op := by
  apply BitVec.eq_of_toNat_eq; rw [opField_toNat, wordNNN_toNat]; omega

@[simp] theorem nnnField_wordNNN : nnnField (wordNNN op nnn) = nnn := by
  apply BitVec.eq_of_toNat_eq; rw [nnnField_toNat, wordNNN_toNat]; omega

end

/-! ### The decoder on bytes -/

theorem decode_two_bytes (hi lo : Byte) (rest : List Byte) (i : Instr) (r : List Byte) :
    decode (hi :: lo :: rest) = .ok (i, r) ↔ decodeWord (wordOfBytes hi lo) = some i ∧ r = rest := by
  rw [decode]
  cases decodeWord (wordOfBytes hi lo) <;> simp [eq_comm]

/-- The opcode-table entry is the decoder on the word's own 16 bits. -/
theorem decodeTableWord_eq (nbits w : Nat) : decodeTableWord nbits w = decodeWord (tableWord nbits w) := by
  rw [decodeTableWord, decode, wordOfBytes_bytesOfWord]
  cases decodeWord (tableWord nbits w) <;> rfl

end Sys2Proof
end

