-- ==== Sys2Proof/Laws/State.lean ====
section
/-! SUPPORT. One lemma per field per update of State, true by unfolding the one update, so that no later proof unfolds
a record update; and what each accessor reads after each update. -/

namespace Sys2Proof.Machine

section
variable (s : State)

/-! ### `setReg` -/

@[simp] theorem State.setReg_v (x : Reg) (b : Byte) : (s.setReg x b).v = s.v.set x b := rfl
@[simp] theorem State.setReg_pc (x : Reg) (b : Byte) : (s.setReg x b).pc = s.pc := rfl
@[simp] theorem State.setReg_i (x : Reg) (b : Byte) : (s.setReg x b).i = s.i := rfl
@[simp] theorem State.setReg_sp (x : Reg) (b : Byte) : (s.setReg x b).sp = s.sp := rfl
@[simp] theorem State.setReg_stack (x : Reg) (b : Byte) : (s.setReg x b).stack = s.stack := rfl
@[simp] theorem State.setReg_dt (x : Reg) (b : Byte) : (s.setReg x b).dt = s.dt := rfl
@[simp] theorem State.setReg_st (x : Reg) (b : Byte) : (s.setReg x b).st = s.st := rfl
@[simp] theorem State.setReg_keys (x : Reg) (b : Byte) : (s.setReg x b).keys = s.keys := rfl
@[simp] theorem State.setReg_fb (x : Reg) (b : Byte) : (s.setReg x b).fb = s.fb := rfl
@[simp] theorem State.setReg_mem (x : Reg) (b : Byte) : (s.setReg x b).mem = s.mem := rfl
@[simp] theorem State.setReg_fault (x : Reg) (b : Byte) : (s.setReg x b).fault = s.fault := rfl
@[simp] theorem State.setReg_params (x : Reg) (b : Byte) : (s.setReg x b).params = s.params := rfl
@[simp] theorem State.setReg_draws (x : Reg) (b : Byte) : (s.setReg x b).draws = s.draws := rfl
@[simp] theorem State.setReg_drawCount (x : Reg) (b : Byte) : (s.setReg x b).drawCount = s.drawCount := rfl
@[simp] theorem State.setReg_readByte (x : Reg) (b : Byte) (m : Nat) : (s.setReg x b).readByte m = s.readByte m := rfl
@[simp] theorem State.setReg_keyDown (x : Reg) (b : Byte) (k : Fin 16) : (s.setReg x b).keyDown k = s.keyDown k := rfl

/-! ### `setPc` -/

@[simp] theorem State.setPc_v (a : Word) : (s.setPc a).v = s.v := rfl
@[simp] theorem State.setPc_pc (a : Word) : (s.setPc a).pc = a := rfl
@[simp] theorem State.setPc_i (a : Word) : (s.setPc a).i = s.i := rfl
@[simp] theorem State.setPc_sp (a : Word) : (s.setPc a).sp = s.sp := rfl
@[simp] theorem State.setPc_stack (a : Word) : (s.setPc a).stack = s.stack := rfl
@[simp] theorem State.setPc_dt (a : Word) : (s.setPc a).dt = s.dt := rfl
@[simp] theorem State.setPc_st (a : Word) : (s.setPc a).st = s.st := rfl
@[simp] theorem State.setPc_keys (a : Word) : (s.setPc a).keys = s.keys := rfl
@[simp] theorem State.setPc_fb (a : Word) : (s.setPc a).fb = s.fb := rfl
@[simp] theorem State.setPc_mem (a : Word) : (s.setPc a).mem = s.mem := rfl
@[simp] theorem State.setPc_fault (a : Word) : (s.setPc a).fault = s.fault := rfl
@[simp] theorem State.setPc_params (a : Word) : (s.setPc a).params = s.params := rfl
@[simp] theorem State.setPc_draws (a : Word) : (s.setPc a).draws = s.draws := rfl
@[simp] theorem State.setPc_drawCount (a : Word) : (s.setPc a).drawCount = s.drawCount := rfl
@[simp] theorem State.setPc_reg (a : Word) (r : Reg) : (s.setPc a).reg r = s.reg r := rfl
@[simp] theorem State.setPc_readByte (a : Word) (m : Nat) : (s.setPc a).readByte m = s.readByte m := rfl
@[simp] theorem State.setPc_keyDown (a : Word) (k : Fin 16) : (s.setPc a).keyDown k = s.keyDown k := rfl

/-! ### `setI` -/

@[simp] theorem State.setI_v (a : Word) : (s.setI a).v = s.v := rfl
@[simp] theorem State.setI_pc (a : Word) : (s.setI a).pc = s.pc := rfl
@[simp] theorem State.setI_i (a : Word) : (s.setI a).i = a := rfl
@[simp] theorem State.setI_sp (a : Word) : (s.setI a).sp = s.sp := rfl
@[simp] theorem State.setI_stack (a : Word) : (s.setI a).stack = s.stack := rfl
@[simp] theorem State.setI_dt (a : Word) : (s.setI a).dt = s.dt := rfl
@[simp] theorem State.setI_st (a : Word) : (s.setI a).st = s.st := rfl
@[simp] theorem State.setI_keys (a : Word) : (s.setI a).keys = s.keys := rfl
@[simp] theorem State.setI_fb (a : Word) : (s.setI a).fb = s.fb := rfl
@[simp] theorem State.setI_mem (a : Word) : (s.setI a).mem = s.mem := rfl
@[simp] theorem State.setI_fault (a : Word) : (s.setI a).fault = s.fault := rfl
@[simp] theorem State.setI_params (a : Word) : (s.setI a).params = s.params := rfl
@[simp] theorem State.setI_draws (a : Word) : (s.setI a).draws = s.draws := rfl
@[simp] theorem State.setI_drawCount (a : Word) : (s.setI a).drawCount = s.drawCount := rfl
@[simp] theorem State.setI_reg (a : Word) (r : Reg) : (s.setI a).reg r = s.reg r := rfl
@[simp] theorem State.setI_readByte (a : Word) (m : Nat) : (s.setI a).readByte m = s.readByte m := rfl
@[simp] theorem State.setI_keyDown (a : Word) (k : Fin 16) : (s.setI a).keyDown k = s.keyDown k := rfl

/-! ### `setDt` -/

@[simp] theorem State.setDt_v (b : Byte) : (s.setDt b).v = s.v := rfl
@[simp] theorem State.setDt_pc (b : Byte) : (s.setDt b).pc = s.pc := rfl
@[simp] theorem State.setDt_i (b : Byte) : (s.setDt b).i = s.i := rfl
@[simp] theorem State.setDt_sp (b : Byte) : (s.setDt b).sp = s.sp := rfl
@[simp] theorem State.setDt_stack (b : Byte) : (s.setDt b).stack = s.stack := rfl
@[simp] theorem State.setDt_dt (b : Byte) : (s.setDt b).dt = b := rfl
@[simp] theorem State.setDt_st (b : Byte) : (s.setDt b).st = s.st := rfl
@[simp] theorem State.setDt_keys (b : Byte) : (s.setDt b).keys = s.keys := rfl
@[simp] theorem State.setDt_fb (b : Byte) : (s.setDt b).fb = s.fb := rfl
@[simp] theorem State.setDt_mem (b : Byte) : (s.setDt b).mem = s.mem := rfl
@[simp] theorem State.setDt_fault (b : Byte) : (s.setDt b).fault = s.fault := rfl
@[simp] theorem State.setDt_params (b : Byte) : (s.setDt b).params = s.params := rfl
@[simp] theorem State.setDt_draws (b : Byte) : (s.setDt b).draws = s.draws := rfl
@[simp] theorem State.setDt_drawCount (b : Byte) : (s.setDt b).drawCount = s.drawCount := rfl
@[simp] theorem State.setDt_reg (b : Byte) (r : Reg) : (s.setDt b).reg r = s.reg r := rfl
@[simp] theorem State.setDt_readByte (b : Byte) (m : Nat) : (s.setDt b).readByte m = s.readByte m := rfl
@[simp] theorem State.setDt_keyDown (b : Byte) (k : Fin 16) : (s.setDt b).keyDown k = s.keyDown k := rfl

/-! ### `setSt` -/

@[simp] theorem State.setSt_v (b : Byte) : (s.setSt b).v = s.v := rfl
@[simp] theorem State.setSt_pc (b : Byte) : (s.setSt b).pc = s.pc := rfl
@[simp] theorem State.setSt_i (b : Byte) : (s.setSt b).i = s.i := rfl
@[simp] theorem State.setSt_sp (b : Byte) : (s.setSt b).sp = s.sp := rfl
@[simp] theorem State.setSt_stack (b : Byte) : (s.setSt b).stack = s.stack := rfl
@[simp] theorem State.setSt_dt (b : Byte) : (s.setSt b).dt = s.dt := rfl
@[simp] theorem State.setSt_st (b : Byte) : (s.setSt b).st = b := rfl
@[simp] theorem State.setSt_keys (b : Byte) : (s.setSt b).keys = s.keys := rfl
@[simp] theorem State.setSt_fb (b : Byte) : (s.setSt b).fb = s.fb := rfl
@[simp] theorem State.setSt_mem (b : Byte) : (s.setSt b).mem = s.mem := rfl
@[simp] theorem State.setSt_fault (b : Byte) : (s.setSt b).fault = s.fault := rfl
@[simp] theorem State.setSt_params (b : Byte) : (s.setSt b).params = s.params := rfl
@[simp] theorem State.setSt_draws (b : Byte) : (s.setSt b).draws = s.draws := rfl
@[simp] theorem State.setSt_drawCount (b : Byte) : (s.setSt b).drawCount = s.drawCount := rfl
@[simp] theorem State.setSt_reg (b : Byte) (r : Reg) : (s.setSt b).reg r = s.reg r := rfl
@[simp] theorem State.setSt_readByte (b : Byte) (m : Nat) : (s.setSt b).readByte m = s.readByte m := rfl
@[simp] theorem State.setSt_keyDown (b : Byte) (k : Fin 16) : (s.setSt b).keyDown k = s.keyDown k := rfl

/-! ### `setFb` -/

@[simp] theorem State.setFb_v (f : FrameBuffer) : (s.setFb f).v = s.v := rfl
@[simp] theorem State.setFb_pc (f : FrameBuffer) : (s.setFb f).pc = s.pc := rfl
@[simp] theorem State.setFb_i (f : FrameBuffer) : (s.setFb f).i = s.i := rfl
@[simp] theorem State.setFb_sp (f : FrameBuffer) : (s.setFb f).sp = s.sp := rfl
@[simp] theorem State.setFb_stack (f : FrameBuffer) : (s.setFb f).stack = s.stack := rfl
@[simp] theorem State.setFb_dt (f : FrameBuffer) : (s.setFb f).dt = s.dt := rfl
@[simp] theorem State.setFb_st (f : FrameBuffer) : (s.setFb f).st = s.st := rfl
@[simp] theorem State.setFb_keys (f : FrameBuffer) : (s.setFb f).keys = s.keys := rfl
@[simp] theorem State.setFb_fb (f : FrameBuffer) : (s.setFb f).fb = f := rfl
@[simp] theorem State.setFb_mem (f : FrameBuffer) : (s.setFb f).mem = s.mem := rfl
@[simp] theorem State.setFb_fault (f : FrameBuffer) : (s.setFb f).fault = s.fault := rfl
@[simp] theorem State.setFb_params (f : FrameBuffer) : (s.setFb f).params = s.params := rfl
@[simp] theorem State.setFb_draws (f : FrameBuffer) : (s.setFb f).draws = s.draws := rfl
@[simp] theorem State.setFb_drawCount (f : FrameBuffer) : (s.setFb f).drawCount = s.drawCount := rfl
@[simp] theorem State.setFb_reg (f : FrameBuffer) (r : Reg) : (s.setFb f).reg r = s.reg r := rfl
@[simp] theorem State.setFb_readByte (f : FrameBuffer) (m : Nat) : (s.setFb f).readByte m = s.readByte m := rfl
@[simp] theorem State.setFb_keyDown (f : FrameBuffer) (k : Fin 16) : (s.setFb f).keyDown k = s.keyDown k := rfl

/-! ### `advance` -/

@[simp] theorem State.advance_v : s.advance.v = s.v := rfl
@[simp] theorem State.advance_pc : s.advance.pc = s.pc + 2 := rfl
@[simp] theorem State.advance_i : s.advance.i = s.i := rfl
@[simp] theorem State.advance_sp : s.advance.sp = s.sp := rfl
@[simp] theorem State.advance_stack : s.advance.stack = s.stack := rfl
@[simp] theorem State.advance_dt : s.advance.dt = s.dt := rfl
@[simp] theorem State.advance_st : s.advance.st = s.st := rfl
@[simp] theorem State.advance_keys : s.advance.keys = s.keys := rfl
@[simp] theorem State.advance_fb : s.advance.fb = s.fb := rfl
@[simp] theorem State.advance_mem : s.advance.mem = s.mem := rfl
@[simp] theorem State.advance_fault : s.advance.fault = s.fault := rfl
@[simp] theorem State.advance_params : s.advance.params = s.params := rfl
@[simp] theorem State.advance_draws : s.advance.draws = s.draws := rfl
@[simp] theorem State.advance_drawCount : s.advance.drawCount = s.drawCount := rfl
@[simp] theorem State.advance_reg (r : Reg) : s.advance.reg r = s.reg r := rfl
@[simp] theorem State.advance_readByte (m : Nat) : s.advance.readByte m = s.readByte m := rfl
@[simp] theorem State.advance_keyDown (k : Fin 16) : s.advance.keyDown k = s.keyDown k := rfl

/-! ### `skipIf` -/

@[simp] theorem State.skipIf_v (c : Bool) : (s.skipIf c).v = s.v := rfl
@[simp] theorem State.skipIf_pc (c : Bool) : (s.skipIf c).pc = if c then s.pc + 4 else s.pc + 2 := rfl
@[simp] theorem State.skipIf_i (c : Bool) : (s.skipIf c).i = s.i := rfl
@[simp] theorem State.skipIf_sp (c : Bool) : (s.skipIf c).sp = s.sp := rfl
@[simp] theorem State.skipIf_stack (c : Bool) : (s.skipIf c).stack = s.stack := rfl
@[simp] theorem State.skipIf_dt (c : Bool) : (s.skipIf c).dt = s.dt := rfl
@[simp] theorem State.skipIf_st (c : Bool) : (s.skipIf c).st = s.st := rfl
@[simp] theorem State.skipIf_keys (c : Bool) : (s.skipIf c).keys = s.keys := rfl
@[simp] theorem State.skipIf_fb (c : Bool) : (s.skipIf c).fb = s.fb := rfl
@[simp] theorem State.skipIf_mem (c : Bool) : (s.skipIf c).mem = s.mem := rfl
@[simp] theorem State.skipIf_fault (c : Bool) : (s.skipIf c).fault = s.fault := rfl
@[simp] theorem State.skipIf_params (c : Bool) : (s.skipIf c).params = s.params := rfl
@[simp] theorem State.skipIf_draws (c : Bool) : (s.skipIf c).draws = s.draws := rfl
@[simp] theorem State.skipIf_drawCount (c : Bool) : (s.skipIf c).drawCount = s.drawCount := rfl
@[simp] theorem State.skipIf_reg (c : Bool) (r : Reg) : (s.skipIf c).reg r = s.reg r := rfl
@[simp] theorem State.skipIf_readByte (c : Bool) (m : Nat) : (s.skipIf c).readByte m = s.readByte m := rfl
@[simp] theorem State.skipIf_keyDown (c : Bool) (k : Fin 16) : (s.skipIf c).keyDown k = s.keyDown k := rfl

/-! ### `raise` -/

@[simp] theorem State.raise_v (c : FaultCode) (n : Nat) : (s.raise c n).v = s.v := rfl
@[simp] theorem State.raise_pc (c : FaultCode) (n : Nat) : (s.raise c n).pc = s.pc := rfl
@[simp] theorem State.raise_i (c : FaultCode) (n : Nat) : (s.raise c n).i = s.i := rfl
@[simp] theorem State.raise_sp (c : FaultCode) (n : Nat) : (s.raise c n).sp = s.sp := rfl
@[simp] theorem State.raise_stack (c : FaultCode) (n : Nat) : (s.raise c n).stack = s.stack := rfl
@[simp] theorem State.raise_dt (c : FaultCode) (n : Nat) : (s.raise c n).dt = s.dt := rfl
@[simp] theorem State.raise_st (c : FaultCode) (n : Nat) : (s.raise c n).st = s.st := rfl
@[simp] theorem State.raise_keys (c : FaultCode) (n : Nat) : (s.raise c n).keys = s.keys := rfl
@[simp] theorem State.raise_fb (c : FaultCode) (n : Nat) : (s.raise c n).fb = s.fb := rfl
@[simp] theorem State.raise_mem (c : FaultCode) (n : Nat) : (s.raise c n).mem = s.mem := rfl
@[simp] theorem State.raise_fault (c : FaultCode) (n : Nat) : (s.raise c n).fault = ⟨c, s.pc, BitVec.ofNat 17 n⟩ := rfl
@[simp] theorem State.raise_params (c : FaultCode) (n : Nat) : (s.raise c n).params = s.params := rfl
@[simp] theorem State.raise_draws (c : FaultCode) (n : Nat) : (s.raise c n).draws = s.draws := rfl
@[simp] theorem State.raise_drawCount (c : FaultCode) (n : Nat) : (s.raise c n).drawCount = s.drawCount := rfl
@[simp] theorem State.raise_reg (c : FaultCode) (n : Nat) (r : Reg) : (s.raise c n).reg r = s.reg r := rfl
@[simp] theorem State.raise_readByte (c : FaultCode) (n : Nat) (m : Nat) : (s.raise c n).readByte m = s.readByte m := rfl
@[simp] theorem State.raise_keyDown (c : FaultCode) (n : Nat) (k : Fin 16) : (s.raise c n).keyDown k = s.keyDown k := rfl

/-! ### `writeBytes` -/

@[simp] theorem State.writeBytes_v (a : Nat) (bs : List Byte) : (s.writeBytes a bs).v = s.v := rfl
@[simp] theorem State.writeBytes_pc (a : Nat) (bs : List Byte) : (s.writeBytes a bs).pc = s.pc := rfl
@[simp] theorem State.writeBytes_i (a : Nat) (bs : List Byte) : (s.writeBytes a bs).i = s.i := rfl
@[simp] theorem State.writeBytes_sp (a : Nat) (bs : List Byte) : (s.writeBytes a bs).sp = s.sp := rfl
@[simp] theorem State.writeBytes_stack (a : Nat) (bs : List Byte) : (s.writeBytes a bs).stack = s.stack := rfl
@[simp] theorem State.writeBytes_dt (a : Nat) (bs : List Byte) : (s.writeBytes a bs).dt = s.dt := rfl
@[simp] theorem State.writeBytes_st (a : Nat) (bs : List Byte) : (s.writeBytes a bs).st = s.st := rfl
@[simp] theorem State.writeBytes_keys (a : Nat) (bs : List Byte) : (s.writeBytes a bs).keys = s.keys := rfl
@[simp] theorem State.writeBytes_fb (a : Nat) (bs : List Byte) : (s.writeBytes a bs).fb = s.fb := rfl
@[simp] theorem State.writeBytes_mem (a : Nat) (bs : List Byte) : (s.writeBytes a bs).mem = Memory.writeList s.params.fontData s.mem a bs := rfl
@[simp] theorem State.writeBytes_fault (a : Nat) (bs : List Byte) : (s.writeBytes a bs).fault = s.fault := rfl
@[simp] theorem State.writeBytes_params (a : Nat) (bs : List Byte) : (s.writeBytes a bs).params = s.params := rfl
@[simp] theorem State.writeBytes_draws (a : Nat) (bs : List Byte) : (s.writeBytes a bs).draws = s.draws := rfl
@[simp] theorem State.writeBytes_drawCount (a : Nat) (bs : List Byte) : (s.writeBytes a bs).drawCount = s.drawCount := rfl
@[simp] theorem State.writeBytes_reg (a : Nat) (bs : List Byte) (r : Reg) : (s.writeBytes a bs).reg r = s.reg r := rfl
@[simp] theorem State.writeBytes_keyDown (a : Nat) (bs : List Byte) (k : Fin 16) : (s.writeBytes a bs).keyDown k = s.keyDown k := rfl

/-! ### `push` -/

@[simp] theorem State.push_v (a : Word) (h : s.sp.val < 16) : (s.push a h).v = s.v := rfl
@[simp] theorem State.push_pc (a : Word) (h : s.sp.val < 16) : (s.push a h).pc = s.pc := rfl
@[simp] theorem State.push_i (a : Word) (h : s.sp.val < 16) : (s.push a h).i = s.i := rfl
@[simp] theorem State.push_sp (a : Word) (h : s.sp.val < 16) : (s.push a h).sp = ⟨s.sp.val + 1, Nat.succ_lt_succ h⟩ := rfl
@[simp] theorem State.push_stack (a : Word) (h : s.sp.val < 16) : (s.push a h).stack = s.stack.set s.sp.val a := rfl
@[simp] theorem State.push_dt (a : Word) (h : s.sp.val < 16) : (s.push a h).dt = s.dt := rfl
@[simp] theorem State.push_st (a : Word) (h : s.sp.val < 16) : (s.push a h).st = s.st := rfl
@[simp] theorem State.push_keys (a : Word) (h : s.sp.val < 16) : (s.push a h).keys = s.keys := rfl
@[simp] theorem State.push_fb (a : Word) (h : s.sp.val < 16) : (s.push a h).fb = s.fb := rfl
@[simp] theorem State.push_mem (a : Word) (h : s.sp.val < 16) : (s.push a h).mem = s.mem := rfl
@[simp] theorem State.push_fault (a : Word) (h : s.sp.val < 16) : (s.push a h).fault = s.fault := rfl
@[simp] theorem State.push_params (a : Word) (h : s.sp.val < 16) : (s.push a h).params = s.params := rfl
@[simp] theorem State.push_draws (a : Word) (h : s.sp.val < 16) : (s.push a h).draws = s.draws := rfl
@[simp] theorem State.push_drawCount (a : Word) (h : s.sp.val < 16) : (s.push a h).drawCount = s.drawCount := rfl
@[simp] theorem State.push_reg (a : Word) (h : s.sp.val < 16) (r : Reg) : (s.push a h).reg r = s.reg r := rfl
@[simp] theorem State.push_readByte (a : Word) (h : s.sp.val < 16) (m : Nat) : (s.push a h).readByte m = s.readByte m := rfl
@[simp] theorem State.push_keyDown (a : Word) (h : s.sp.val < 16) (k : Fin 16) : (s.push a h).keyDown k = s.keyDown k := rfl

/-! ### `pop` -/

@[simp] theorem State.pop_v : s.pop.v = s.v := rfl
@[simp] theorem State.pop_pc : s.pop.pc = s.pc := rfl
@[simp] theorem State.pop_i : s.pop.i = s.i := rfl
@[simp] theorem State.pop_stack : s.pop.stack = s.stack := rfl
@[simp] theorem State.pop_dt : s.pop.dt = s.dt := rfl
@[simp] theorem State.pop_st : s.pop.st = s.st := rfl
@[simp] theorem State.pop_keys : s.pop.keys = s.keys := rfl
@[simp] theorem State.pop_fb : s.pop.fb = s.fb := rfl
@[simp] theorem State.pop_mem : s.pop.mem = s.mem := rfl
@[simp] theorem State.pop_fault : s.pop.fault = s.fault := rfl
@[simp] theorem State.pop_params : s.pop.params = s.params := rfl
@[simp] theorem State.pop_draws : s.pop.draws = s.draws := rfl
@[simp] theorem State.pop_drawCount : s.pop.drawCount = s.drawCount := rfl
@[simp] theorem State.pop_sp_val : (s.pop).sp.val = s.sp.val - 1 := rfl
@[simp] theorem State.pop_reg (r : Reg) : s.pop.reg r = s.reg r := rfl
@[simp] theorem State.pop_readByte (m : Nat) : s.pop.readByte m = s.readByte m := rfl
@[simp] theorem State.pop_keyDown (k : Fin 16) : s.pop.keyDown k = s.keyDown k := rfl

/-! ### `loadRegs` -/

@[simp] theorem State.loadRegs_pc (x : Reg) (g : Nat → Byte) : (s.loadRegs x g).pc = s.pc := rfl
@[simp] theorem State.loadRegs_i (x : Reg) (g : Nat → Byte) : (s.loadRegs x g).i = s.i := rfl
@[simp] theorem State.loadRegs_sp (x : Reg) (g : Nat → Byte) : (s.loadRegs x g).sp = s.sp := rfl
@[simp] theorem State.loadRegs_stack (x : Reg) (g : Nat → Byte) : (s.loadRegs x g).stack = s.stack := rfl
@[simp] theorem State.loadRegs_dt (x : Reg) (g : Nat → Byte) : (s.loadRegs x g).dt = s.dt := rfl
@[simp] theorem State.loadRegs_st (x : Reg) (g : Nat → Byte) : (s.loadRegs x g).st = s.st := rfl
@[simp] theorem State.loadRegs_keys (x : Reg) (g : Nat → Byte) : (s.loadRegs x g).keys = s.keys := rfl
@[simp] theorem State.loadRegs_fb (x : Reg) (g : Nat → Byte) : (s.loadRegs x g).fb = s.fb := rfl
@[simp] theorem State.loadRegs_mem (x : Reg) (g : Nat → Byte) : (s.loadRegs x g).mem = s.mem := rfl
@[simp] theorem State.loadRegs_fault (x : Reg) (g : Nat → Byte) : (s.loadRegs x g).fault = s.fault := rfl
@[simp] theorem State.loadRegs_params (x : Reg) (g : Nat → Byte) : (s.loadRegs x g).params = s.params := rfl
@[simp] theorem State.loadRegs_draws (x : Reg) (g : Nat → Byte) : (s.loadRegs x g).draws = s.draws := rfl
@[simp] theorem State.loadRegs_drawCount (x : Reg) (g : Nat → Byte) : (s.loadRegs x g).drawCount = s.drawCount := rfl
@[simp] theorem State.loadRegs_readByte (x : Reg) (g : Nat → Byte) (m : Nat) : (s.loadRegs x g).readByte m = s.readByte m := rfl
@[simp] theorem State.loadRegs_keyDown (x : Reg) (g : Nat → Byte) (k : Fin 16) : (s.loadRegs x g).keyDown k = s.keyDown k := rfl

/-! ### `setFlagAndReg` -/

@[simp] theorem State.setFlagAndReg_v (x : Reg) (f b : Byte) : (s.setFlagAndReg x f b).v = (s.v.set VF f).set x b := rfl
@[simp] theorem State.setFlagAndReg_pc (x : Reg) (f b : Byte) : (s.setFlagAndReg x f b).pc = s.pc := rfl
@[simp] theorem State.setFlagAndReg_i (x : Reg) (f b : Byte) : (s.setFlagAndReg x f b).i = s.i := rfl
@[simp] theorem State.setFlagAndReg_sp (x : Reg) (f b : Byte) : (s.setFlagAndReg x f b).sp = s.sp := rfl
@[simp] theorem State.setFlagAndReg_stack (x : Reg) (f b : Byte) : (s.setFlagAndReg x f b).stack = s.stack := rfl
@[simp] theorem State.setFlagAndReg_dt (x : Reg) (f b : Byte) : (s.setFlagAndReg x f b).dt = s.dt := rfl
@[simp] theorem State.setFlagAndReg_st (x : Reg) (f b : Byte) : (s.setFlagAndReg x f b).st = s.st := rfl
@[simp] theorem State.setFlagAndReg_keys (x : Reg) (f b : Byte) : (s.setFlagAndReg x f b).keys = s.keys := rfl
@[simp] theorem State.setFlagAndReg_fb (x : Reg) (f b : Byte) : (s.setFlagAndReg x f b).fb = s.fb := rfl
@[simp] theorem State.setFlagAndReg_mem (x : Reg) (f b : Byte) : (s.setFlagAndReg x f b).mem = s.mem := rfl
@[simp] theorem State.setFlagAndReg_fault (x : Reg) (f b : Byte) : (s.setFlagAndReg x f b).fault = s.fault := rfl
@[simp] theorem State.setFlagAndReg_params (x : Reg) (f b : Byte) : (s.setFlagAndReg x f b).params = s.params := rfl
@[simp] theorem State.setFlagAndReg_draws (x : Reg) (f b : Byte) : (s.setFlagAndReg x f b).draws = s.draws := rfl
@[simp] theorem State.setFlagAndReg_drawCount (x : Reg) (f b : Byte) : (s.setFlagAndReg x f b).drawCount = s.drawCount := rfl
@[simp] theorem State.setFlagAndReg_readByte (x : Reg) (f b : Byte) (m : Nat) : (s.setFlagAndReg x f b).readByte m = s.readByte m := rfl
@[simp] theorem State.setFlagAndReg_keyDown (x : Reg) (f b : Byte) (k : Fin 16) : (s.setFlagAndReg x f b).keyDown k = s.keyDown k := rfl

/-! ### `useRand` -/

@[simp] theorem State.useRand_v : s.useRand.v = s.v := by unfold State.useRand; split <;> rfl
@[simp] theorem State.useRand_pc : s.useRand.pc = s.pc := by unfold State.useRand; split <;> rfl
@[simp] theorem State.useRand_i : s.useRand.i = s.i := by unfold State.useRand; split <;> rfl
@[simp] theorem State.useRand_sp : s.useRand.sp = s.sp := by unfold State.useRand; split <;> rfl
@[simp] theorem State.useRand_stack : s.useRand.stack = s.stack := by unfold State.useRand; split <;> rfl
@[simp] theorem State.useRand_dt : s.useRand.dt = s.dt := by unfold State.useRand; split <;> rfl
@[simp] theorem State.useRand_st : s.useRand.st = s.st := by unfold State.useRand; split <;> rfl
@[simp] theorem State.useRand_keys : s.useRand.keys = s.keys := by unfold State.useRand; split <;> rfl
@[simp] theorem State.useRand_fb : s.useRand.fb = s.fb := by unfold State.useRand; split <;> rfl
@[simp] theorem State.useRand_mem : s.useRand.mem = s.mem := by unfold State.useRand; split <;> rfl
@[simp] theorem State.useRand_fault : s.useRand.fault = s.fault := by unfold State.useRand; split <;> rfl
@[simp] theorem State.useRand_params : s.useRand.params = s.params := by unfold State.useRand; split <;> rfl
@[simp] theorem State.useRand_reg (r : Reg) : s.useRand.reg r = s.reg r := by simp [State.reg]
@[simp] theorem State.useRand_readByte (m : Nat) : s.useRand.readByte m = s.readByte m := by simp [State.readByte]
@[simp] theorem State.useRand_keyDown (k : Fin 16) : s.useRand.keyDown k = s.keyDown k := by simp [State.keyDown]

theorem State.useRand_of_supplied {r : Byte} {rest : List Byte} (h : s.draws = r :: rest) :
    s.useRand = { s with draws := rest } ∧ s.rand = r := by
  simp [State.useRand, State.rand, h]

theorem State.useRand_of_none (h : s.draws = []) :
    s.useRand = { s with drawCount := s.drawCount + 1 } ∧ s.rand = Config.freeRand s.drawCount := by
  simp [State.useRand, State.rand, h]

/-! ### Registers after a register write -/

theorem State.setReg_reg (x r : Reg) (b : Byte) : (s.setReg x b).reg r = if r = x then b else s.reg r := by
  simp [State.reg, State.setReg, Vector.getElem_set, Fin.ext_iff, eq_comm]

@[simp] theorem State.setReg_reg_self (x : Reg) (b : Byte) : (s.setReg x b).reg x = b := by simp [State.setReg_reg]

theorem State.setReg_reg_ne {x r : Reg} (h : r ≠ x) (b : Byte) : (s.setReg x b).reg r = s.reg r := by
  simp [State.setReg_reg, h]

/-- Flag first, result second (40_execution_cycle.md R127). -/
theorem State.setFlagAndReg_reg (x r : Reg) (f b : Byte) :
    (s.setFlagAndReg x f b).reg r = if r = x then b else if r = VF then f else s.reg r := by
  simp [State.setFlagAndReg, State.setReg_reg]

theorem State.loadRegs_reg (x r : Reg) (g : Nat → Byte) :
    (s.loadRegs x g).reg r = if r ≤ x then g r else s.reg r := by
  simp [State.reg, State.loadRegs]

/-! ### The stack after a push -/

theorem State.push_stack_get (a : Word) (h : s.sp.val < 16) (j : Fin 16) :
    (s.push a h).stack[j] = if j.val = s.sp.val then a else s.stack[j] := by
  simp [Vector.getElem_set, eq_comm]

@[simp] theorem State.push_sp_val (a : Word) (h : s.sp.val < 16) : (s.push a h).sp.val = s.sp.val + 1 := rfl

end

/-! ### Fault codes -/

@[simp] theorem State.faulted_eq_false_iff (s : State) : s.faulted = false ↔ s.fault.code = .none := by
  simp [State.faulted]

@[simp] theorem State.faulted_eq_true_iff (s : State) : s.faulted = true ↔ s.fault.code ≠ .none := by
  simp [State.faulted]

theorem FaultCode.number_injective {c d : FaultCode} (h : c.number = d.number) : c = d := by
  cases c <;> cases d <;> first | rfl | exact absurd h (by decide)

/-! ### Flags as numbers -/

@[simp] theorem flagOf_toNat (c : Bool) : (flagOf c).toNat = if c then 1 else 0 := by cases c <;> rfl

theorem carryFlag_toNat (a b : Byte) : (carryFlag a b).toNat = if a.toNat + b.toNat > 255 then 1 else 0 := by
  simp [carryFlag]

theorem noBorrowFlag_toNat (a b : Byte) : (noBorrowFlag a b).toNat = if a.toNat > b.toNat then 1 else 0 := by
  simp [noBorrowFlag]

theorem lowBitFlag_toNat (a : Byte) : (lowBitFlag a).toNat = a.toNat % 2 := by
  simp [lowBitFlag, BitVec.toNat_and, Nat.and_one_is_mod]

theorem highBitFlag_toNat (a : Byte) : (highBitFlag a).toNat = a.toNat / 128 := by
  have := a.isLt
  simp only [highBitFlag, BitVec.toNat_and, BitVec.toNat_ushiftRight, Nat.shiftRight_eq_div_pow]
  rw [show BitVec.toNat (1 : Byte) = 1 from rfl, Nat.and_one_is_mod]
  omega

/-! ### Operands -/

@[simp] theorem zextAddr_toNat (nnn : Addr) : (zextAddr nnn).toNat = nnn.toNat := by
  have := nnn.isLt
  simp [zextAddr, BitVec.toNat_setWidth]
  omega

@[simp] theorem zextByte_toNat (b : Byte) : (zextByte b).toNat = b.toNat := by
  have := b.isLt
  simp [zextByte, BitVec.toNat_setWidth]
  omega

theorem digit?_eq_some_iff (b : Byte) (d : Fin 16) : digit? b = some d ↔ b.toNat = d.val := by
  unfold digit?
  split
  · simp [Fin.ext_iff]
  · simp only [reduceCtorEq, false_iff]; have := d.isLt; omega

theorem digit?_eq_none_iff (b : Byte) : digit? b = none ↔ 0xF < b.toNat := by
  unfold digit?
  split <;> simp <;> omega

@[simp] theorem digitByte_toNat (d : Fin 16) : (digitByte d).toNat = d.val := by
  have := d.isLt
  simp [digitByte]
  omega

@[simp] theorem fontAddr_toNat (d : Fin 16) : (fontAddr d).toNat = 5 * d.val := by
  have := d.isLt
  simp only [fontAddr, BitVec.toNat_ofNat, Config.fontBase, Config.fontEntry]
  omega

@[simp] theorem State.regBlock_length (s : State) (x : Reg) : (s.regBlock x).length = x.val + 1 := by
  have := x.isLt
  simp [State.regBlock]

theorem State.regBlock_getElem (s : State) (x : Reg) (k : Nat) (h : k < (s.regBlock x).length) :
    (s.regBlock x)[k] = s.reg ⟨k, by have := x.isLt; rw [State.regBlock_length] at h; omega⟩ := by
  simp [State.regBlock, State.reg]

/-- The key Fx0A stores is down, and no smaller one is (45_keypad_timers.md R263). -/
theorem State.firstKeyDown_eq_some_iff (s : State) (k : Fin 16) :
    s.firstKeyDown = some k ↔ s.keyDown k = true ∧ ∀ j, j < k → s.keyDown j = false := by
  unfold State.firstKeyDown
  constructor
  · intro h
    obtain ⟨hk, as, bs, heq, hlt⟩ := List.find?_eq_some_iff_append.mp h
    refine ⟨hk, fun j hj => ?_⟩
    have hmem : j ∈ as ++ k :: bs := heq ▸ List.mem_finRange j
    have hs : (as ++ k :: bs).Pairwise (· < ·) := heq ▸ List.pairwise_lt_finRange 16
    rcases List.mem_append.mp hmem with ha | hb
    · simpa using hlt j ha
    · rw [List.pairwise_append, List.pairwise_cons] at hs
      rcases List.mem_cons.mp hb with rfl | hb
      · exact absurd hj (lt_irrefl _)
      · exact absurd (hs.2.1.1 j hb) (not_lt.mpr hj.le)
  · rintro ⟨hk, hlt⟩
    cases h : (List.finRange 16).find? s.keyDown with
    | none => exact absurd hk (by simpa using List.find?_eq_none.mp h k (List.mem_finRange k))
    | some m =>
      obtain ⟨hm, as, bs, heq, hbefore⟩ := List.find?_eq_some_iff_append.mp h
      have hmk : ¬ m < k := fun hl => by simp [hlt m hl] at hm
      have hkm : ¬ k < m := fun hl => by
        have hmem : k ∈ as ++ m :: bs := heq ▸ List.mem_finRange k
        have hs : (as ++ m :: bs).Pairwise (· < ·) := heq ▸ List.pairwise_lt_finRange 16
        rcases List.mem_append.mp hmem with ha | hb
        · simpa [hk] using hbefore k ha
        · rw [List.pairwise_append, List.pairwise_cons] at hs
          rcases List.mem_cons.mp hb with rfl | hb
          · exact lt_irrefl _ hl
          · exact absurd (hs.2.1.1 k hb) (not_lt.mpr hl.le)
      rw [le_antisymm (not_lt.mp hkm) (not_lt.mp hmk)]

theorem State.firstKeyDown_eq_none_iff (s : State) : s.firstKeyDown = none ↔ ∀ k, s.keyDown k = false := by
  simp [State.firstKeyDown]

end Sys2Proof.Machine
end

