-- ==== Sys2Proof/Laws/Display.lean ====
section
/-! SUPPORT. The drawing engine, once (41_display.md R141): the loops toggle each cell a 1 of the sprite lands on, no cell
twice, and `hit` is whether one of them was lit before. -/

namespace Sys2Proof.Machine

/-! ### Cells -/

theorem FrameBuffer.ext_cell {f g : FrameBuffer} (h : ∀ cx cy, f.cell cx cy = g.cell cx cy) : f = g := by
  apply Vector.ext
  intro j hj
  apply BitVec.eq_of_getLsbD_eq
  intro b hb
  exact h ⟨b, hb⟩ ⟨j, hj⟩

@[simp] theorem FrameBuffer.blank_cell (cx : Fin 64) (cy : Fin 32) : FrameBuffer.blank.cell cx cy = false := by
  simp [FrameBuffer.blank, FrameBuffer.cell]

theorem FrameBuffer.toggle_cell (f : FrameBuffer) (cx a : Fin 64) (cy b : Fin 32) :
    (f.toggle cx cy).cell a b = (f.cell a b ^^ decide (a = cx ∧ b = cy)) := by
  unfold FrameBuffer.toggle FrameBuffer.cell
  by_cases hb : b = cy
  · subst hb
    simp [Fin.ext_iff, eq_comm]
  · have : ¬ (cy : Nat) = b := fun h => hb (Fin.ext h.symm)
    simp [this, hb]

/-! ### Plotting a list of cells -/

/-- The cells a sprite's bits of 1 land on, rows top to bottom, columns left to right. -/
def spriteCells (X Y n : Nat) (sprite : Nat → Byte) : List (Fin 64 × Fin 32) :=
  (List.range n).flatMap fun r =>
    ((List.range 8).filter fun c => (sprite r).getLsbD (7 - c)).map fun c => (column (X + c), row (Y + r))

theorem drawSprite_eq_foldl (X Y n : Nat) (sprite : Nat → Byte) (k : Canvas) :
    drawSprite X Y n sprite k = (spriteCells X Y n sprite).foldl (fun k p => plot k p.1 p.2) k := by
  unfold drawSprite spriteCells
  rw [List.foldl_flatMap]
  congr 1
  funext k r
  rw [List.foldl_map, List.foldl_filter, drawRow]

theorem foldl_plot (ps : List (Fin 64 × Fin 32)) (hps : ps.Nodup) (k : Canvas) :
    (∀ cx cy, (ps.foldl (fun k p => plot k p.1 p.2) k).1.cell cx cy = (k.1.cell cx cy ^^ decide ((cx, cy) ∈ ps))) ∧
    (ps.foldl (fun k p => plot k p.1 p.2) k).2 = (k.2 || decide (∃ p ∈ ps, k.1.cell p.1 p.2 = true)) := by
  induction ps generalizing k with
  | nil => simp
  | cons p rest ih =>
    obtain ⟨hp, hrest⟩ := List.nodup_cons.mp hps
    obtain ⟨ihc, ihh⟩ := ih hrest (plot k p.1 p.2)
    have cellAfter : ∀ cx cy, (plot k p.1 p.2).1.cell cx cy = (k.1.cell cx cy ^^ decide ((cx, cy) = p)) := by
      intro cx cy
      rw [plot, FrameBuffer.toggle_cell]
      congr 2
      simp [Prod.ext_iff]
    constructor
    · intro cx cy
      rw [List.foldl_cons, ihc, cellAfter]
      by_cases h : (cx, cy) = p
      · subst h; simp [hp]
      · simp [h]
    · rw [List.foldl_cons, ihh]
      have same : (∃ q ∈ rest, (plot k p.1 p.2).1.cell q.1 q.2 = true) ↔ ∃ q ∈ rest, k.1.cell q.1 q.2 = true := by
        constructor <;> rintro ⟨q, hq, hc⟩ <;> refine ⟨q, hq, ?_⟩ <;>
          have hne : (q.1, q.2) ≠ p := (fun h => hp (by rw [← h]; exact hq)) <;>
          simpa [cellAfter, hne] using hc
      simp only [plot, List.mem_cons]
      cases hk : k.2 <;> cases hc : k.1.cell p.1 p.2 <;> simp [hc]
      simpa [plot] using same

@[simp] theorem column_val (a : Nat) : (column a).val = a % 64 := rfl

@[simp] theorem row_val (a : Nat) : (row a).val = a % 32 := rfl

/-- No self-overlap: distinct sprite bits land on distinct cells (R141). -/
theorem spriteCells_nodup (X Y n : Nat) (sprite : Nat → Byte) (hn : n ≤ 32) : (spriteCells X Y n sprite).Nodup := by
  unfold spriteCells
  rw [List.nodup_flatMap]
  constructor
  · intro r _
    apply List.Nodup.map_on _ (List.nodup_range.filter _)
    intro c hc d hd h
    simp only [List.mem_filter, List.mem_range] at hc hd
    have := congrArg (fun p => p.1.val) h
    simp at this
    omega
  · apply List.Pairwise.imp_of_mem _ (List.pairwise_lt_range (n := n))
    intro r q hr hq hlt
    simp only [List.mem_range] at hr hq
    intro p hp hp'
    simp only [List.mem_map] at hp hp'
    obtain ⟨c, -, rfl⟩ := hp
    obtain ⟨d, -, h⟩ := hp'
    have := congrArg (fun p => p.2.val) h
    simp at this
    omega

theorem mem_spriteCells (X Y n : Nat) (sprite : Nat → Byte) (cx : Fin 64) (cy : Fin 32) :
    (cx, cy) ∈ spriteCells X Y n sprite ↔
      ∃ r < n, ∃ c < 8, (X + c) % 64 = cx.val ∧ (Y + r) % 32 = cy.val ∧ (sprite r).getLsbD (7 - c) = true := by
  simp only [spriteCells, List.mem_flatMap, List.mem_range, List.mem_map, List.mem_filter, Prod.mk.injEq, Fin.ext_iff,
    column_val, row_val]
  constructor
  · rintro ⟨r, hr, c, ⟨hc, hb⟩, h1, h2⟩; exact ⟨r, hr, c, hc, h1, h2, hb⟩
  · rintro ⟨r, hr, c, hc, h1, h2, hb⟩; exact ⟨r, hr, c, ⟨hc, hb⟩, h1, h2⟩

/-- After a draw a cell is its old value XOR whether a 1 of the sprite lands on it. -/
theorem drawSprite_cell (X Y n : Nat) (sprite : Nat → Byte) (hn : n ≤ 32) (k : Canvas) (cx : Fin 64) (cy : Fin 32) :
    (drawSprite X Y n sprite k).1.cell cx cy = (k.1.cell cx cy ^^ decide ((cx, cy) ∈ spriteCells X Y n sprite)) := by
  rw [drawSprite_eq_foldl]
  exact (foldl_plot _ (spriteCells_nodup X Y n sprite hn) k).1 cx cy

/-- A draw hits when a 1 of the sprite lands on a cell that was lit before. -/
theorem drawSprite_hit (X Y n : Nat) (sprite : Nat → Byte) (hn : n ≤ 32) (k : Canvas) :
    (drawSprite X Y n sprite k).2 =
      (k.2 || decide (∃ p ∈ spriteCells X Y n sprite, k.1.cell p.1 p.2 = true)) := by
  rw [drawSprite_eq_foldl]
  exact (foldl_plot _ (spriteCells_nodup X Y n sprite hn) k).2

end Sys2Proof.Machine
end

