-- ==== Sys2Proof/Laws/Memory.lean ====
section
/-! SUPPORT. What the memory operations and the admission checks do (20_memory.md R63 to R65): read after write, what a
write leaves alone, the canonical form, and the first failing address. -/

namespace Sys2Proof.Machine

section
variable (font : Vector Byte Config.fontSize) (m : Memory)

/-! ### Read after write -/

theorem Memory.read_insert (c : Host.Cell) (a : Nat) (h : ∀ d ∈ m, d.1 ≠ c.1) :
    Memory.read font (Memory.insert c m) a = if c.1 = a then c.2 else Memory.read font m a := by
  induction m with
  | nil => simp [Memory.insert, Memory.read]
  | cons d rest ih =>
    unfold Memory.insert
    split
    · simp [Memory.read]
    · have hd : d.1 ≠ c.1 := h d (by simp)
      rw [Memory.read, ih fun e he => h e (by simp [he])]
      by_cases hda : d.1 = a
      · have hca : c.1 ≠ a := fun hc => hd (hda.trans hc.symm)
        simp [Memory.read, hda, hca]
      · simp [Memory.read, hda]

theorem Memory.read_filter_ne (a b : Nat) :
    Memory.read font (m.filter fun c => c.1 != a) b = if b = a then Memory.unlisted font a else Memory.read font m b := by
  induction m with
  | nil => simp [Memory.read]; intro h; rw [h]
  | cons d rest ih =>
    by_cases hda : d.1 = a
    · rw [List.filter_cons_of_neg (by simp [hda]), ih]
      by_cases hb : b = a
      · simp [hb]
      · have : d.1 ≠ b := fun h => hb (h.symm.trans hda)
        simp [hb, Memory.read, this]
    · rw [List.filter_cons_of_pos (by simp [hda])]
      by_cases hb : b = a
      · have : d.1 ≠ b := fun h => hda (h.trans hb)
        rw [Memory.read, if_neg this, ih]
        simp [hb]
      · simp [Memory.read, ih, hb]

/-- A read after a write gives the byte written at its address, and every other address is left alone (R65). -/
theorem Memory.read_write (a b : Nat) (v : Byte) :
    Memory.read font (Memory.write font m a v) b = if b = a then v else Memory.read font m b := by
  unfold Memory.write
  split
  · rename_i hv
    rw [Memory.read_filter_ne, hv]
  · rw [Memory.read_insert _ _ _ _ (by simp), Memory.read_filter_ne]
    by_cases hb : b = a
    · simp [hb]
    · simp [hb, Ne.symm hb]

theorem Memory.read_writeList (a b : Nat) (bs : List Byte) :
    Memory.read font (Memory.writeList font m a bs) b =
      if h : a ≤ b ∧ b - a < bs.length then bs[b - a]'h.2 else Memory.read font m b := by
  induction bs generalizing m a with
  | nil => simp [Memory.writeList]
  | cons v vs ih =>
    rw [Memory.writeList, ih]
    by_cases hab : b = a
    · subst hab; simp [Memory.read_write]
    · by_cases hlt : a < b
      · have e : b - a = (b - (a + 1)) + 1 := by omega
        by_cases hl : b - (a + 1) < vs.length
        · rw [dif_pos ⟨by omega, hl⟩, dif_pos ⟨by omega, by simp; omega⟩]
          simp [e]
        · rw [dif_neg (by simp; omega), dif_neg (by simp; omega), Memory.read_write, if_neg hab]
      · rw [dif_neg (by omega), dif_neg (by omega), Memory.read_write, if_neg hab]

/-! ### Canonical form -/

theorem Memory.wf_iff : Memory.wf font m = true ↔
    (m.map Prod.fst).Pairwise (· < ·) ∧ ∀ c ∈ m, c.1 < Config.memSize ∧ c.2 ≠ Memory.unlisted font c.1 := by
  simp [Memory.wf]

theorem Memory.mem_insert (c d : Host.Cell) : d ∈ Memory.insert c m ↔ d = c ∨ d ∈ m := by
  induction m with
  | nil => simp [Memory.insert]
  | cons e rest ih =>
    unfold Memory.insert
    split
    · simp
    · simp [ih]; tauto

theorem Memory.pairwise_insert (c : Host.Cell) (h : (m.map Prod.fst).Pairwise (· < ·)) (hc : ∀ d ∈ m, d.1 ≠ c.1) :
    ((Memory.insert c m).map Prod.fst).Pairwise (· < ·) := by
  induction m with
  | nil => simp [Memory.insert]
  | cons d rest ih =>
    rw [List.map_cons, List.pairwise_cons] at h
    have hd : d.1 ≠ c.1 := hc d (by simp)
    unfold Memory.insert
    split
    · rename_i hlt
      rw [List.map_cons, List.pairwise_cons, List.map_cons, List.pairwise_cons]
      refine ⟨fun x hx => ?_, h⟩
      rcases List.mem_cons.mp hx with rfl | hx
      · exact hlt
      · exact lt_trans hlt (h.1 x hx)
    · rename_i hnlt
      rw [List.map_cons, List.pairwise_cons]
      refine ⟨fun x hx => ?_, ih h.2 fun e he => hc e (by simp [he])⟩
      obtain ⟨e, he, rfl⟩ := List.mem_map.mp hx
      rcases (Memory.mem_insert rest c e).mp he with rfl | he
      · omega
      · exact h.1 _ (List.mem_map_of_mem he)

/-- The cells of a memory after a write: the cell written, or one that was there. -/
theorem Memory.mem_write {a : Nat} {v : Byte} {c : Host.Cell} (h : c ∈ Memory.write font m a v) :
    c = (a, v) ∨ c ∈ m := by
  unfold Memory.write at h
  split at h
  · exact .inr (List.mem_of_mem_filter h)
  · rcases (Memory.mem_insert _ _ _).mp h with h | h
    · exact .inl h
    · exact .inr (List.mem_of_mem_filter h)

/-- A write inside the address space keeps the canonical form. -/
theorem Memory.wf_write {a : Nat} {v : Byte} (h : Memory.wf font m = true) (ha : a < Config.memSize) :
    Memory.wf font (Memory.write font m a v) = true := by
  rw [Memory.wf_iff] at h ⊢
  have hp : ((m.filter fun c => c.1 != a).map Prod.fst).Pairwise (· < ·) :=
    h.1.sublist (List.filter_sublist.map _)
  refine ⟨?_, fun c hc => ?_⟩
  · unfold Memory.write
    split
    · exact hp
    · exact Memory.pairwise_insert _ _ hp (by simp)
  · unfold Memory.write at hc
    split at hc
    · exact h.2 c (List.mem_of_mem_filter hc)
    · rename_i hv
      rcases (Memory.mem_insert _ _ _).mp hc with rfl | hc
      · exact ⟨ha, hv⟩
      · exact h.2 c (List.mem_of_mem_filter hc)

theorem Memory.mem_writeList {a : Nat} {bs : List Byte} {c : Host.Cell} (h : c ∈ Memory.writeList font m a bs) :
    (a ≤ c.1 ∧ c.1 < a + bs.length) ∨ c ∈ m := by
  induction bs generalizing m a with
  | nil => exact .inr h
  | cons v vs ih =>
    rcases ih (m := Memory.write font m a v) h with h | h
    · left; simp; omega
    · rcases Memory.mem_write font m h with rfl | h
      · left; simp
      · exact .inr h

/-- Every memory operation keeps the canonical form. -/
theorem Memory.wf_writeList {a : Nat} {bs : List Byte} (h : Memory.wf font m = true)
    (ha : a + bs.length ≤ Config.memSize) : Memory.wf font (Memory.writeList font m a bs) = true := by
  induction bs generalizing m a with
  | nil => exact h
  | cons v vs ih =>
    simp only [List.length_cons] at ha
    exact ih (m := Memory.write font m a v) (Memory.wf_write font m h (by omega)) (by omega)

end

theorem Memory.wf_nil (font : Vector Byte Config.fontSize) : Memory.wf font [] = true := rfl

/-- A byte after a store of several: the one stored there, or the one before. -/
theorem State.writeBytes_readByte (s : State) (a b : Nat) (bs : List Byte) :
    (s.writeBytes a bs).readByte b = if h : a ≤ b ∧ b - a < bs.length then bs[b - a]'h.2 else s.readByte b := by
  simp only [State.readByte, State.writeBytes_mem, State.writeBytes_params, Memory.read_writeList]

/-! ### Admission checks -/

theorem region_eq_prog_iff (p : Params) (a : Nat) : region p a = .prog ↔ 0x200 ≤ a ∧ a < p.programEnd := by
  simp only [region, Config.programStart, Config.memSize]
  split_ifs <;> simp <;> omega

theorem checkAddr_fetch_eq_none_iff (p : Params) (a : Nat) :
    checkAddr p .fetch a = none ↔ 0x200 ≤ a ∧ a < p.programEnd := by
  rw [← region_eq_prog_iff]
  cases h : region p a <;> simp [checkAddr, refusedBy, h]

theorem checkAddr_block_eq_none_iff (p : Params) (a : Nat) :
    checkAddr p .block a = none ↔ 0x200 ≤ a ∧ a < p.programEnd := by
  rw [← region_eq_prog_iff]
  cases h : region p a <;> simp [checkAddr, refusedBy, h]

/-- The checks of a range pass when each address passes (60_exceptions.md R284). -/
theorem checkRange_eq_none_iff (p : Params) (k : Access) (base n : Nat) :
    checkRange p k base n = none ↔ ∀ j, j < n → checkAddr p k (base + j) = none := by
  simp [checkRange]

/-- A failing range reports its lowest failing address (R284). -/
theorem checkRange_eq_some_iff (p : Params) (k : Access) (base n : Nat) (f : Failure) :
    checkRange p k base n = some f ↔
      ∃ q, q < n ∧ checkAddr p k (base + q) = some f ∧ ∀ j, j < q → checkAddr p k (base + j) = none := by
  unfold checkRange
  induction n with
  | zero => simp
  | succ n ih =>
    rw [List.range_succ, List.findSome?_append]
    cases h : (List.range n).findSome? fun j => checkAddr p k (base + j) with
    | some g =>
      rw [h] at ih
      simp only [Option.some_or]
      rw [ih]
      constructor
      · rintro ⟨q, hq, h1, h2⟩; exact ⟨q, by omega, h1, h2⟩
      · rintro ⟨q, hq, h1, h2⟩
        refine ⟨q, ?_, h1, h2⟩
        by_contra hn
        obtain rfl : q = n := by omega
        have : (List.range q).findSome? (fun j => checkAddr p k (base + j)) = none := by
          rw [List.findSome?_eq_none_iff]; intro j hj; exact h2 j (by simpa using hj)
        simp [this] at h
    | none =>
      rw [List.findSome?_eq_none_iff] at h
      simp only [Option.none_or, List.findSome?_cons, List.findSome?_nil]
      constructor
      · intro hf
        refine ⟨n, by omega, ?_, fun j hj => h j (by simpa using hj)⟩
        cases hc : checkAddr p k (base + n) <;> simp_all
      · rintro ⟨q, hq, h1, h2⟩
        obtain rfl : q = n := by
          by_contra hn
          have := h q (by simp; omega)
          simp [h1] at this
        rw [h1]

/-- The checks-before-writes operation: the effect when the check passed, else the fault entry (40_execution_cycle.md R130). -/
@[simp] theorem guarded_none (s e : State) : guarded none s e = e := rfl

@[simp] theorem guarded_some (f : Failure) (s e : State) : guarded (some f) s e = s.raise f.1 f.2 := rfl

theorem guarded_cases (o : Option Failure) (s e : State) :
    (o = none ∧ guarded o s e = e) ∨ ∃ f, o = some f ∧ guarded o s e = s.raise f.1 f.2 := by
  cases o with
  | none => exact .inl ⟨rfl, rfl⟩
  | some f => exact .inr ⟨f, rfl, rfl⟩

end Sys2Proof.Machine
end

