-- ==== Sys2Proof/Laws/Step.lean ====
section
/-! SUPPORT. What a fetch, a STEP, a faulting instruction and a schedule can do, each said once. -/

namespace Sys2Proof.Machine

/-! ### Fetch (40_execution_cycle.md R122) -/

theorem State.fetchFailure_eq_none_iff (s : State) :
    s.fetchFailure = none ↔ (0x200 ≤ s.pc.toNat ∧ s.pc.toNat < s.params.programEnd) ∧
      (0x200 ≤ s.pc.toNat + 1 ∧ s.pc.toNat + 1 < s.params.programEnd) := by
  rw [State.fetchFailure, checkRange_eq_none_iff]
  constructor
  · intro h
    exact ⟨(checkAddr_fetch_eq_none_iff _ _).mp (h 0 (by decide)), (checkAddr_fetch_eq_none_iff _ _).mp (h 1 (by decide))⟩
  · rintro ⟨h0, h1⟩ j hj
    rw [checkAddr_fetch_eq_none_iff]
    obtain rfl | rfl : j = 0 ∨ j = 1 := by omega
    · exact h0
    · exact h1

theorem State.fetchWord_toNat (s : State) :
    s.fetchWord.toNat = (s.readByte s.pc.toNat).toNat * 256 + (s.readByte (s.pc.toNat + 1)).toNat := by
  rw [State.fetchWord, wordOfBytes_toNat]

theorem State.fetchDecode_eq_ok_iff (s : State) (i : Instr) :
    s.fetchDecode = .ok i ↔ s.fetchFailure = none ∧ decodeWord s.fetchWord = some i := by
  unfold State.fetchDecode
  cases h : s.fetchFailure with
  | some f => simp
  | none => cases h' : decodeWord s.fetchWord <;> simp

theorem State.fetchDecode_eq_error_iff (s : State) (f : Failure) :
    s.fetchDecode = .error f ↔ s.fetchFailure = some f ∨
      (s.fetchFailure = none ∧ decodeWord s.fetchWord = none ∧ f = (.illegalInstruction, s.fetchWord.toNat)) := by
  unfold State.fetchDecode
  cases h : s.fetchFailure with
  | some g => simp
  | none => cases h' : decodeWord s.fetchWord <;> simp [eq_comm]

/-- The fetch sees only PC, memory and the settings. -/
theorem State.fetchDecode_congr {s t : State} (hp : t.pc = s.pc) (hm : t.mem = s.mem) (hq : t.params = s.params) :
    t.fetchDecode = s.fetchDecode := by
  simp only [State.fetchDecode, State.fetchFailure, State.fetchWord, State.readByte, hp, hm, hq]

/-! ### STEP (R132) -/

/-- Everything a STEP can do. -/
theorem step_cases {s t : State} (h : step s = .next t) :
    (s.fault.code ≠ .none ∧ t = s) ∨
    (s.fault.code = .none ∧ ∃ f, s.fetchDecode = .error f ∧ t = s.raise f.1 f.2) ∨
    (s.fault.code = .none ∧ ∃ i, s.fetchDecode = .ok i ∧ exec i s = .next t) := by
  unfold step at h
  split at h
  · rename_i hf
    cases h
    exact .inl ⟨(State.faulted_eq_true_iff s).mp hf, rfl⟩
  · rename_i hf
    have hc : s.fault.code = .none := (State.faulted_eq_false_iff s).mp (by simpa using hf)
    split at h
    · rename_i f hd
      cases h
      exact .inr (.inl ⟨hc, f, hd, rfl⟩)
    · rename_i i hd
      exact .inr (.inr ⟨hc, i, hd, h⟩)

theorem step_of_faulted {s : State} (h : s.fault.code ≠ .none) : step s = .next s := by
  simp [step, h]

theorem step_of_error {s : State} {f : Failure} (h : s.fault.code = .none) (hd : s.fetchDecode = .error f) :
    step s = .next (s.raise f.1 f.2) := by
  simp [step, h, hd]

theorem step_of_ok {s : State} {i : Instr} (h : s.fault.code = .none) (hd : s.fetchDecode = .ok i) :
    step s = exec i s := by
  simp [step, h, hd]

/-! ### Placing a word where the next STEP fetches -/

theorem readyToFetch_fetchFailure (s : State) (h : s.params.wf) : s.readyToFetch.fetchFailure = none := by
  cases hf : s.fetchFailure with
  | none =>
    have hp : s.readyToFetch.pc = s.pc := by simp [State.readyToFetch, hf]
    have hq : s.readyToFetch.params = s.params := rfl
    rw [← hf, State.fetchFailure, hp, hq]
    rfl
  | some f =>
    have hp : s.readyToFetch.pc = 0x200 := by simp [State.readyToFetch, hf, Config.programStart]
    have hq : s.readyToFetch.params = s.params := rfl
    rw [State.fetchFailure_eq_none_iff, hp, hq]
    obtain ⟨hlo, -⟩ := h
    rw [show (0x200 : Word).toNat = 0x200 from rfl]
    omega

/-- After `withFetchWord` the core is not faulted, and the next STEP fetches the word that was placed (log 12). -/
theorem withFetchWord_fetches (s : State) (nbits w : Nat) (h : s.params.wf) :
    (s.withFetchWord nbits w).fault.code = .none ∧ (s.withFetchWord nbits w).fetchFailure = none ∧
      (s.withFetchWord nbits w).fetchWord = tableWord nbits w := by
  refine ⟨?_, readyToFetch_fetchFailure s h, ?_⟩
  · show (if s.faulted then FaultRegister.clear else s.fault).code = .none
    cases hf : s.faulted <;> simp_all
  · unfold State.fetchWord State.withFetchWord State.placeWord
    simp only [State.writeBytes_readByte, State.writeBytes_pc]
    rw [dif_pos (by simp), dif_pos (by simp)]
    simp only [Nat.sub_self, Nat.add_sub_cancel_left, List.getElem_cons_zero, List.getElem_cons_succ]
    exact wordOfBytes_bytesOfWord _

/-! ### Instructions that may fault or wait: everything each can do -/

section
variable {s t : State}

theorem execRet_cases (h : execRet s = .next t) :
    (∃ hs : 0 < s.sp.val, t = s.pop.setPc (s.top hs + 2)) ∨ (s.sp.val = 0 ∧ t = s.raise .stackUnderflow 0) := by
  unfold execRet at h
  split at h <;> cases h
  · exact .inl ⟨‹_›, rfl⟩
  · exact .inr ⟨by omega, rfl⟩

theorem execCall_cases {nnn : Addr} (h : execCall nnn s = .next t) :
    (∃ hs : s.sp.val < 16, t = (s.push s.pc hs).setPc (zextAddr nnn)) ∨
      (s.sp.val = 16 ∧ t = s.raise .stackOverflow 0) := by
  unfold execCall at h
  split at h <;> cases h
  · exact .inl ⟨‹_›, rfl⟩
  · exact .inr ⟨by have := s.sp.isLt; omega, rfl⟩

theorem execLdF_cases {x : Reg} (h : execLdF x s = .next t) :
    (∃ d : Fin 16, (s.reg x).toNat = d.val ∧ t = (s.setI (fontAddr d)).advance) ∨
      (0xF < (s.reg x).toNat ∧ t = s.raise .fontDigitOutOfRange (s.reg x).toNat) := by
  unfold execLdF at h
  split at h <;> cases h
  · exact .inl ⟨_, (digit?_eq_some_iff _ _).mp ‹_›, rfl⟩
  · exact .inr ⟨(digit?_eq_none_iff _).mp ‹_›, rfl⟩

theorem execSkp_cases {x : Reg} (h : execSkp x s = .next t) :
    (∃ k : Fin 16, (s.reg x).toNat = k.val ∧ t = s.skipIf (s.keyDown k)) ∨
      (0xF < (s.reg x).toNat ∧ t = s.raise .keyIndexOutOfRange (s.reg x).toNat) := by
  unfold execSkp at h
  split at h <;> cases h
  · exact .inl ⟨_, (digit?_eq_some_iff _ _).mp ‹_›, rfl⟩
  · exact .inr ⟨(digit?_eq_none_iff _).mp ‹_›, rfl⟩

theorem execSknp_cases {x : Reg} (h : execSknp x s = .next t) :
    (∃ k : Fin 16, (s.reg x).toNat = k.val ∧ t = s.skipIf (!s.keyDown k)) ∨
      (0xF < (s.reg x).toNat ∧ t = s.raise .keyIndexOutOfRange (s.reg x).toNat) := by
  unfold execSknp at h
  split at h <;> cases h
  · exact .inl ⟨_, (digit?_eq_some_iff _ _).mp ‹_›, rfl⟩
  · exact .inr ⟨(digit?_eq_none_iff _).mp ‹_›, rfl⟩

theorem execLdVxK_cases {x : Reg} (h : execLdVxK x s = .next t) :
    (∃ k : Fin 16, s.firstKeyDown = some k ∧ t = (s.setReg x (digitByte k)).advance) ∨
      (s.firstKeyDown = none ∧ t = s) := by
  unfold execLdVxK at h
  split at h <;> cases h
  · exact .inl ⟨_, ‹_›, rfl⟩
  · exact .inr ⟨‹_›, rfl⟩

end

/-! ### STEP(RAND) and schedules (60_exceptions.md R297, R298) -/

theorem stepRand_eq_next_iff {r : Byte} {s t : State} :
    stepRand r s = .next t ↔ ∃ u, step { s with draws := [r] } = .next u ∧ t = { u with draws := s.draws } := by
  unfold stepRand
  cases step { s with draws := [r] } <;> simp [eq_comm]

theorem runSchedule_cons_eq_next_iff {tr : Transaction} {rest : List Transaction} {s t : State} :
    runSchedule (tr :: rest) s = .next t ↔ ∃ u, transact tr s = .next u ∧ runSchedule rest u = .next t := by
  rw [runSchedule]
  cases transact tr s <;> simp

/-- What holds at the start of a schedule and is kept by each of its transactions holds at its end. -/
theorem runSchedule_induction {P : State → Prop} {sched : List Transaction}
    (keep : ∀ tr ∈ sched, ∀ s t, P s → transact tr s = .next t → P t) {s t : State} (hs : P s)
    (h : runSchedule sched s = .next t) : P t := by
  induction sched generalizing s with
  | nil => cases h; exact hs
  | cons tr rest ih =>
    obtain ⟨u, hu, hrest⟩ := runSchedule_cons_eq_next_iff.mp h
    exact ih (fun tr' htr => keep tr' (List.mem_cons_of_mem _ htr)) (keep tr (by simp) s u hs hu) hrest

end Sys2Proof.Machine
end

