-- ==== Sys2Proof/Laws/Observe.lean ====
section
/-! SUPPORT. Reading an element, and the last of a list of writes, one lemma each. -/

namespace Sys2Proof.Machine

section
variable (s : State)

@[simp] theorem State.observe_reg (x : Reg) : s.observe (.reg x) = (s.reg x).toNat := rfl
@[simp] theorem State.observe_i : s.observe .i = s.i.toNat := rfl
@[simp] theorem State.observe_pc : s.observe .pc = s.pc.toNat := rfl
@[simp] theorem State.observe_sp : s.observe .sp = s.sp.val := rfl
@[simp] theorem State.observe_stack (j : Fin 16) : s.observe (.stack j) = s.stack[j].toNat := rfl
@[simp] theorem State.observe_dt : s.observe .dt = s.dt.toNat := rfl
@[simp] theorem State.observe_st : s.observe .st = s.st.toNat := rfl
@[simp] theorem State.observe_key (k : Fin 16) : s.observe (.key k) = (s.keyDown k).toNat := rfl
@[simp] theorem State.observe_cell (cx : Fin 64) (cy : Fin 32) :
    s.observe (.cell cx cy) = (s.fb.cell cx cy).toNat := rfl
@[simp] theorem State.observe_mem (a : Nat) : s.observe (.mem a) = (s.readByte a).toNat := rfl
@[simp] theorem State.observe_faultCode : s.observe .faultCode = s.fault.code.number.toNat := rfl
@[simp] theorem State.observe_faultPc : s.observe .faultPc = s.fault.pc.toNat := rfl
@[simp] theorem State.observe_faultInfo : s.observe .faultInfo = s.fault.info.toNat := rfl

end

@[simp] theorem lastWrite_nil (e : Element) : lastWrite [] e = none := rfl

@[simp] theorem lastWrite_cons (w : Element × Nat) (ws : List (Element × Nat)) (e : Element) :
    lastWrite (w :: ws) e = (lastWrite ws e).or (if w.1 = e then some w.2 else none) := by
  rw [lastWrite]
  cases lastWrite ws e <;> rfl

/-- The register writes of a flag-writing instruction: the result, with the flag under it (40_execution_cycle.md R127). -/
theorem lastWrite_flagThenResult (x r : Reg) (flag result : Nat) (p : Nat) :
    lastWrite [(.reg VF, flag), (.reg x, result), (.pc, p)] (.reg r) =
      if r = x then some result else if r = VF then some flag else none := by
  by_cases h : r = x
  · subst h; simp
  · by_cases h' : r = VF
    · subst h'; simp [Ne.symm h, h]
    · simp [Ne.symm h, Ne.symm h', h, h']

/-- The fault entry of a value that fits FAULT.info (60_exceptions.md R282). -/
theorem raise_info_toNat {n : Nat} (h : n < 2 ^ 17) : (BitVec.ofNat 17 n).toNat = n := by
  rw [BitVec.toNat_ofNat, Nat.mod_eq_of_lt h]

end Sys2Proof.Machine
end

