-- ==== Sys2Proof/Laws/Effect.lean ====
section
/-! SUPPORT. The complete effect of the shared operations that end an instruction, and what every instruction leaves of
the machine's settings. -/

namespace Sys2Proof.Machine

/-! ### PC updates (40_execution_cycle.md R128) -/

theorem pc_add_two_toNat (p : Word) : (p + 2).toNat = (p.toNat + 2) % 65536 := by simp [BitVec.toNat_add]

theorem pc_add_four_toNat (p : Word) : (p + 4).toNat = (p.toNat + 4) % 65536 := by simp [BitVec.toNat_add]

section
variable (s : State)

/-- A skip moves PC and nothing else. -/
theorem State.skipIf_effect (c : Bool) (p : Prop) [Decidable p] (h : c = true ↔ p) :
    Effect s (s.skipIf c) (lastWrite [pcPlus s (if p then 4 else 2)]) := by
  refine ⟨fun e => ?_, rfl, rfl, rfl⟩
  by_cases hp : p
  · cases e <;> simp [pcPlus, h.mpr hp, hp]
  · have hc : c = false := by simpa [hp] using h
    cases e <;> simp [pcPlus, hc, hp]

/-- One register written, then PC moved on. -/
theorem State.setReg_advance_effect (x : Reg) (b : Byte) :
    Effect s (s.setReg x b).advance (lastWrite [(.reg x, b.toNat), pcPlus s 2]) := by
  refine ⟨fun e => ?_, rfl, rfl, rfl⟩
  cases e <;> simp [pcPlus, State.setReg_reg, eq_comm]
  split <;> simp

/-- The flag written, then the result over it, then PC moved on (40_execution_cycle.md R127). -/
theorem State.setFlagAndReg_advance_effect (x : Reg) (flag result : Byte) :
    Effect s (s.setFlagAndReg x flag result).advance
      (lastWrite [(.reg VF, flag.toNat), (.reg x, result.toNat), pcPlus s 2]) := by
  refine ⟨fun e => ?_, rfl, rfl, rfl⟩
  cases e
  case reg r =>
    rw [pcPlus, lastWrite_flagThenResult]
    simp only [State.observe_reg, State.advance_reg, State.setFlagAndReg_reg]
    split
    · simp
    · split <;> simp
  all_goals simp [pcPlus]

end

/-! ### Admission of a block and of a sprite (20_memory.md R64) -/

theorem checkRange_block_eq_none_iff (p : Params) (base n : Nat) :
    checkRange p .block base n = none ↔ ∀ k, k < n → InProgram p (base + k) := by
  simp only [checkRange_eq_none_iff, checkAddr_block_eq_none_iff]

/-- A failed check names a fault. -/
theorem checkRange_code_ne_none {p : Params} {k : Access} {base n : Nat} {f : Failure}
    (h : checkRange p k base n = some f) : f.1 ≠ .none := by
  obtain ⟨q, -, hq, -⟩ := (checkRange_eq_some_iff _ _ _ _ _).mp h
  unfold checkAddr at hq
  cases hr : region p (base + q) <;> cases k <;> simp [refusedBy, hr] at hq <;> subst hq <;> simp

/-! ### The settings -/

/-- No instruction changes the machine's settings. -/
theorem exec_params {i : Instr} {s t : State} (h : exec i s = .next t) : t.params = s.params := by
  cases i
  case ret => rcases execRet_cases h with ⟨_, rfl⟩ | ⟨_, rfl⟩ <;> rfl
  case call => rcases execCall_cases h with ⟨_, rfl⟩ | ⟨_, rfl⟩ <;> rfl
  case ldF => rcases execLdF_cases h with ⟨_, _, rfl⟩ | ⟨_, rfl⟩ <;> rfl
  case skp => rcases execSkp_cases h with ⟨_, _, rfl⟩ | ⟨_, rfl⟩ <;> rfl
  case sknp => rcases execSknp_cases h with ⟨_, _, rfl⟩ | ⟨_, rfl⟩ <;> rfl
  case ldVxK => rcases execLdVxK_cases h with ⟨_, _, rfl⟩ | ⟨_, rfl⟩ <;> rfl
  case drw x y n =>
    simp only [exec, execDrw] at h
    cases h
    rcases guarded_cases (checkRange s.params .sprite s.i.toNat n) s _ with ⟨_, hg⟩ | ⟨_, _, hg⟩ <;> rw [hg] <;> rfl
  case ldB x =>
    simp only [exec, execLdB] at h
    cases h
    rcases guarded_cases (checkRange s.params .block s.i.toNat 3) s _ with ⟨_, hg⟩ | ⟨_, _, hg⟩ <;> rw [hg] <;> rfl
  case ldMemVx x =>
    simp only [exec, execLdMemVx] at h
    cases h
    rcases guarded_cases (checkRange s.params .block s.i.toNat (x.val + 1)) s _ with ⟨_, hg⟩ | ⟨_, _, hg⟩ <;> rw [hg] <;> rfl
  case ldVxMem x =>
    simp only [exec, execLdVxMem] at h
    cases h
    rcases guarded_cases (checkRange s.params .block s.i.toNat (x.val + 1)) s _ with ⟨_, hg⟩ | ⟨_, _, hg⟩ <;> rw [hg] <;> rfl
  case rnd => cases h; simp
  all_goals (cases h; rfl)

end Sys2Proof.Machine
end

