-- ==== Sys2Proof/Laws/EndOfRun.lean ====
section
/-! SUPPORT. The conditions of R305 on one state, and the equations of the search for the first end. -/

namespace Sys2Proof.Machine

/-- What the condition of a normal end says. -/
theorem State.endsNormally_iff (s : State) :
    s.endsNormally = true ↔ s.fault.code = .none ∧ ∃ nnn, s.fetchDecode = .ok (.jp nnn) ∧ zextAddr nnn = s.pc := by
  unfold State.endsNormally
  cases h : s.fetchDecode with
  | error f => simp
  | ok i => cases i <;> simp

theorem State.endsInError_iff (s : State) : s.endsInError = true ↔ s.fault.code ≠ .none := by
  simp [State.endsInError]

theorem State.endHere_eq_inError_iff (b : Bool) (s : State) : s.endHere b = some .inError ↔ s.fault.code ≠ .none := by
  rw [← State.endsInError_iff]
  unfold State.endHere
  cases s.endsInError <;> cases b <;> cases s.endsNormally <;> simp

theorem State.endHere_eq_normal_iff (b : Bool) (s : State) :
    s.endHere b = some .normal ↔ b = true ∧ s.endsNormally = true := by
  have hx : s.endsNormally = true → s.endsInError = false := fun h => by
    simp [State.endsInError, ((State.endsNormally_iff s).mp h).1]
  unfold State.endHere
  cases he : s.endsInError <;> cases b <;> cases hn : s.endsNormally <;> simp_all

/-- The search stops at the state it is in when the run ends there. -/
theorem firstEndFrom_of_end {b : Bool} {n : Nat} {sched : List Transaction} {s : State} {kind : RunEnd}
    (h : s.endHere b = some kind) : firstEndFrom b n sched s = some ⟨kind, n, s⟩ := by
  cases sched <;> simp [firstEndFrom, h]

theorem firstEndFrom_nil {b : Bool} {n : Nat} {s : State} (h : s.endHere b = none) : firstEndFrom b n [] s = none := by
  simp [firstEndFrom, h]

/-- Otherwise it goes on over the next transaction. -/
theorem firstEndFrom_cons {b : Bool} {n : Nat} {tr : Transaction} {rest : List Transaction} {s t : State}
    (h : s.endHere b = none) (ht : transact tr s = .next t) :
    firstEndFrom b n (tr :: rest) s = firstEndFrom tr.isStep (n + 1) rest t := by
  simp [firstEndFrom, h, ht]

end Sys2Proof.Machine
end

