-- ==== Sys2Proof/Laws/Invariant.lean ====
section
/-! SUPPORT. How each shared operation keeps the invariant of Safety.lean. -/

namespace Sys2Proof.Machine

variable {s : State}

/-- A change of registers, timers, keys, framebuffer or draws alone keeps the invariant. -/
theorem State.Inv.of_same {t : State} (h : s.Inv) (hq : t.params = s.params) (hm : t.mem = s.mem)
    (hs : t.stack = s.stack) (hd : t.sp = s.sp) (hf : t.fault = s.fault) (hp : t.pc = s.pc) : t.Inv := by
  cases s
  cases t
  simp only at hq hm hs hd hf hp
  subst hq hm hs hd hf hp
  exact ⟨h.1, h.2, h.3, h.4, h.5, h.6, h.7⟩

/-- So does, while the core is not faulted, a new PC within its bound. -/
theorem State.Inv.of_newPc {t : State} (h : s.Inv) (hc : s.fault.code = .none) (hq : t.params = s.params)
    (hm : t.mem = s.mem) (hs : t.stack = s.stack) (hd : t.sp = s.sp) (hf : t.fault = s.fault)
    (hp : t.pc.toNat ≤ 0x10FE) : t.Inv := by
  have hi := h.faultInfo
  refine ⟨hq ▸ h.settings, ?_, ?_, hp, ?_, ?_, ?_⟩
  · rw [hq, hm]; exact h.memory
  · rw [hq, hm]; exact h.reserved
  · rw [hq, hs, hd]; exact h.callSites
  · rw [hf, hc]; simp
  · unfold faultMeaning at hi ⊢
    rw [hf, hc]
    rw [hc] at hi
    exact hi

/-- The fault entry keeps it when FAULT then says what its code stands for (60_exceptions.md R281). -/
theorem State.Inv.raise (h : s.Inv) {code : FaultCode} {info : Nat} (hm : faultMeaning (s.raise code info)) :
    (s.raise code info).Inv :=
  ⟨h.settings, h.memory, h.reserved, h.pcBound, h.callSites, fun _ => rfl, hm⟩

/-- The invariant of a core that is not faulted, in one decidable condition. -/
theorem State.Inv.of_clear (hf : s.fault = .clear) (h : s.params.wf ∧ Memory.wf s.params.fontData s.mem = true ∧
    (∀ c ∈ s.mem, InProgram s.params c.1) ∧ s.pc.toNat ≤ 0x10FE ∧ ∀ j : Fin 16, j.val < s.sp.val →
      InProgram s.params s.stack[j].toNat ∧ InProgram s.params (s.stack[j].toNat + 1)) : s.Inv := by
  obtain ⟨h1, h2, h3, h4, h5⟩ := h
  refine ⟨h1, h2, h3, h4, h5, fun hc => absurd ?_ hc, ?_⟩
  · rw [hf]
  · unfold faultMeaning; rw [hf]

/-- A store inside the program region keeps it. -/
theorem State.Inv.writeBytes (h : s.Inv) {a : Nat} {bs : List Byte} (hb : ∀ j, j < bs.length → InProgram s.params (a + j)) :
    (s.writeBytes a bs).Inv := by
  refine ⟨h.settings, ?_, fun c hc => ?_, h.pcBound, h.callSites, h.faultPc, h.faultInfo⟩
  · cases bs with
    | nil => exact h.memory
    | cons b bs =>
      refine Memory.wf_writeList _ _ h.memory ?_
      have h1 := (hb bs.length (by simp)).2
      have h2 := h.settings.2
      simp only [Config.memSize, List.length_cons]
      omega
  · rcases Memory.mem_writeList _ _ hc with hi | hi
    · have hin := hb (c.1 - a) (by omega)
      rwa [show a + (c.1 - a) = c.1 by omega] at hin
    · exact h.reserved c hi

end Sys2Proof.Machine
end

