-- ==== Sys2Proof/Laws/PerInstr.lean ====
section
/-! SUPPORT. Per-instruction laws: the encoding of every instruction lies in its row of spec/opcode_table.json, and that
row is one of the 34. -/

namespace Sys2Proof

/-- The encoding of the instruction is a word of its opcode-table row (30_encoding.md R92, R94). -/
def Laws.EncodingInRow.Statement (i : Instr) : Prop := i.row ∈ opcodeRows ∧ i.row.admits (encode i) = true

theorem and_wordNNN (op p : BitVec 4) (nnn a : Addr) :
    wordNNN op nnn &&& wordNNN p a = wordNNN (op &&& p) (nnn &&& a) :=
  BitVec.and_append

theorem and_wordXKK (op x p q : BitVec 4) (kk k : Byte) :
    wordXKK op x kk &&& wordXKK p q k = wordXKK (op &&& p) (x &&& q) (kk &&& k) :=
  BitVec.and_append.trans (congrArg (· ++ (kk &&& k)) BitVec.and_append)

theorem and_wordXYN (op x y n p q r s : BitVec 4) :
    wordXYN op x y n &&& wordXYN p q r s = wordXYN (op &&& p) (x &&& q) (y &&& r) (n &&& s) :=
  BitVec.and_append.trans (congrArg (· ++ (n &&& s)) (BitVec.and_append.trans
    (congrArg (· ++ (y &&& r)) BitVec.and_append)))

theorem and_fullDigit (b : BitVec 4) : b &&& 0xF = b := BitVec.and_allOnes

theorem and_fullByte (b : Byte) : b &&& 0xFF = b := BitVec.and_allOnes

theorem and_none {k : Nat} (b : BitVec k) : b &&& 0 = 0 := BitVec.and_zero

/-- Mask 0xF00F keeps the digits op and n. -/
theorem admits_wordXYN (op x y n : BitVec 4) : OpRow.admits ⟨0xF00F, wordXYN op 0 0 n⟩ (wordXYN op x y n) = true := by
  have h := and_wordXYN op x y n 0xF 0 0 0xF
  rw [and_fullDigit, and_fullDigit, and_none, and_none] at h
  exact beq_iff_eq.mpr h

/-- Mask 0xF000 keeps the digit op, in each of the formats. -/
theorem admits_wordNNN (op : BitVec 4) (nnn : Addr) : OpRow.admits ⟨0xF000, wordNNN op 0⟩ (wordNNN op nnn) = true := by
  have h := and_wordNNN op 0xF nnn 0
  rw [and_fullDigit, and_none] at h
  exact beq_iff_eq.mpr h

theorem admits_wordXKK_op (op x : BitVec 4) (kk : Byte) :
    OpRow.admits ⟨0xF000, wordXKK op 0 0⟩ (wordXKK op x kk) = true := by
  have h := and_wordXKK op x 0xF 0 kk 0
  rw [and_fullDigit, and_none, and_none] at h
  exact beq_iff_eq.mpr h

theorem admits_wordXYN_op (op x y n : BitVec 4) :
    OpRow.admits ⟨0xF000, wordXYN op 0 0 0⟩ (wordXYN op x y n) = true := by
  have h := and_wordXYN op x y n 0xF 0 0 0
  rw [and_fullDigit, and_none, and_none, and_none] at h
  exact beq_iff_eq.mpr h

/-- Mask 0xF0FF keeps the digit op and the byte kk. -/
theorem admits_wordXKK (op x : BitVec 4) (kk : Byte) :
    OpRow.admits ⟨0xF0FF, wordXKK op 0 kk⟩ (wordXKK op x kk) = true := by
  have h := and_wordXKK op x 0xF 0 kk 0xFF
  rw [and_fullDigit, and_fullByte, and_none] at h
  exact beq_iff_eq.mpr h

namespace Laws.EncodingInRow

theorem cls : Statement .cls := ⟨by decide, by decide⟩
theorem ret : Statement .ret := ⟨by decide, by decide⟩
theorem jp (nnn : Addr) : Statement (.jp nnn) := ⟨by simp only [Instr.row]; decide, admits_wordNNN 0x1 nnn⟩
theorem call (nnn : Addr) : Statement (.call nnn) := ⟨by simp only [Instr.row]; decide, admits_wordNNN 0x2 nnn⟩
theorem ldI (nnn : Addr) : Statement (.ldI nnn) := ⟨by simp only [Instr.row]; decide, admits_wordNNN 0xA nnn⟩
theorem jpV0 (nnn : Addr) : Statement (.jpV0 nnn) := ⟨by simp only [Instr.row]; decide, admits_wordNNN 0xB nnn⟩
theorem seImm (x : Reg) (kk : Byte) : Statement (.seImm x kk) := ⟨by simp only [Instr.row]; decide, admits_wordXKK_op 0x3 (Reg.bits x) kk⟩
theorem sneImm (x : Reg) (kk : Byte) : Statement (.sneImm x kk) := ⟨by simp only [Instr.row]; decide, admits_wordXKK_op 0x4 (Reg.bits x) kk⟩
theorem ldImm (x : Reg) (kk : Byte) : Statement (.ldImm x kk) := ⟨by simp only [Instr.row]; decide, admits_wordXKK_op 0x6 (Reg.bits x) kk⟩
theorem addImm (x : Reg) (kk : Byte) : Statement (.addImm x kk) := ⟨by simp only [Instr.row]; decide, admits_wordXKK_op 0x7 (Reg.bits x) kk⟩
theorem rnd (x : Reg) (kk : Byte) : Statement (.rnd x kk) := ⟨by simp only [Instr.row]; decide, admits_wordXKK_op 0xC (Reg.bits x) kk⟩
theorem seReg (x y : Reg) : Statement (.seReg x y) := ⟨by simp only [Instr.row]; decide, admits_wordXYN 0x5 (Reg.bits x) (Reg.bits y) 0x0⟩
theorem ldReg (x y : Reg) : Statement (.ldReg x y) := ⟨by simp only [Instr.row]; decide, admits_wordXYN 0x8 (Reg.bits x) (Reg.bits y) 0x0⟩
theorem orReg (x y : Reg) : Statement (.orReg x y) := ⟨by simp only [Instr.row]; decide, admits_wordXYN 0x8 (Reg.bits x) (Reg.bits y) 0x1⟩
theorem andReg (x y : Reg) : Statement (.andReg x y) := ⟨by simp only [Instr.row]; decide, admits_wordXYN 0x8 (Reg.bits x) (Reg.bits y) 0x2⟩
theorem xorReg (x y : Reg) : Statement (.xorReg x y) := ⟨by simp only [Instr.row]; decide, admits_wordXYN 0x8 (Reg.bits x) (Reg.bits y) 0x3⟩
theorem addReg (x y : Reg) : Statement (.addReg x y) := ⟨by simp only [Instr.row]; decide, admits_wordXYN 0x8 (Reg.bits x) (Reg.bits y) 0x4⟩
theorem sub (x y : Reg) : Statement (.sub x y) := ⟨by simp only [Instr.row]; decide, admits_wordXYN 0x8 (Reg.bits x) (Reg.bits y) 0x5⟩
theorem shr (x y : Reg) : Statement (.shr x y) := ⟨by simp only [Instr.row]; decide, admits_wordXYN 0x8 (Reg.bits x) (Reg.bits y) 0x6⟩
theorem subn (x y : Reg) : Statement (.subn x y) := ⟨by simp only [Instr.row]; decide, admits_wordXYN 0x8 (Reg.bits x) (Reg.bits y) 0x7⟩
theorem shl (x y : Reg) : Statement (.shl x y) := ⟨by simp only [Instr.row]; decide, admits_wordXYN 0x8 (Reg.bits x) (Reg.bits y) 0xE⟩
theorem sneReg (x y : Reg) : Statement (.sneReg x y) := ⟨by simp only [Instr.row]; decide, admits_wordXYN 0x9 (Reg.bits x) (Reg.bits y) 0x0⟩
theorem drw (x y : Reg) (n : Fin 16) : Statement (.drw x y n) := ⟨by simp only [Instr.row]; decide, admits_wordXYN_op 0xD (Reg.bits x) (Reg.bits y) (Reg.bits n)⟩
theorem skp (x : Reg) : Statement (.skp x) := ⟨by simp only [Instr.row]; decide, admits_wordXKK 0xE (Reg.bits x) 0x9E⟩
theorem sknp (x : Reg) : Statement (.sknp x) := ⟨by simp only [Instr.row]; decide, admits_wordXKK 0xE (Reg.bits x) 0xA1⟩
theorem ldVxDt (x : Reg) : Statement (.ldVxDt x) := ⟨by simp only [Instr.row]; decide, admits_wordXKK 0xF (Reg.bits x) 0x07⟩
theorem ldVxK (x : Reg) : Statement (.ldVxK x) := ⟨by simp only [Instr.row]; decide, admits_wordXKK 0xF (Reg.bits x) 0x0A⟩
theorem ldDtVx (x : Reg) : Statement (.ldDtVx x) := ⟨by simp only [Instr.row]; decide, admits_wordXKK 0xF (Reg.bits x) 0x15⟩
theorem ldStVx (x : Reg) : Statement (.ldStVx x) := ⟨by simp only [Instr.row]; decide, admits_wordXKK 0xF (Reg.bits x) 0x18⟩
theorem addI (x : Reg) : Statement (.addI x) := ⟨by simp only [Instr.row]; decide, admits_wordXKK 0xF (Reg.bits x) 0x1E⟩
theorem ldF (x : Reg) : Statement (.ldF x) := ⟨by simp only [Instr.row]; decide, admits_wordXKK 0xF (Reg.bits x) 0x29⟩
theorem ldB (x : Reg) : Statement (.ldB x) := ⟨by simp only [Instr.row]; decide, admits_wordXKK 0xF (Reg.bits x) 0x33⟩
theorem ldMemVx (x : Reg) : Statement (.ldMemVx x) := ⟨by simp only [Instr.row]; decide, admits_wordXKK 0xF (Reg.bits x) 0x55⟩
theorem ldVxMem (x : Reg) : Statement (.ldVxMem x) := ⟨by simp only [Instr.row]; decide, admits_wordXKK 0xF (Reg.bits x) 0x65⟩

end Laws.EncodingInRow

end Sys2Proof
end

