-- ==== Sys2Proof/Tests/Slice0.lean ====
section
/-! SUPPORT. Tests. A vector V-… and its expected changes are those of spec/95_test_vectors.md, a word is written out from
the encodings of 30_encoding.md R92 and R94, and every other expected value is worked out by hand from the rule named. -/

namespace Sys2Proof.Tests

open Sys2Proof Sys2Proof.Machine

/-! ### Helpers -/

/-- The state a step leaves, if it leaves one. -/
def stateAfter (o : Host.Outcome State Fault Refusal) : Option State :=
  match o with
  | .next s    => some s
  | .fault _   => none
  | .refused _ => none

/-- The reset state with one instruction word at PC = 0x200. -/
def start (w : Word) : State := State.reset.withFetchWord 16 w.toNat

/-- One STEP from `start w`, changed by `pre`, makes exactly the changes `post`. -/
abbrev Runs (w : Word) (pre post : State → State) : Prop :=
  stateAfter (step (pre (start w))) = some (post (pre (start w)))

/-- Registers set in turn. -/
def setRegs (l : List (Reg × Byte)) (s : State) : State := l.foldl (fun s p => s.setReg p.1 p.2) s

/-- The framebuffer with exactly these cells lit. -/
def lit (l : List (Fin 64 × Fin 32)) (s : State) : State :=
  s.setFb (l.foldl (fun f p => f.toggle p.1 p.2) FrameBuffer.blank)

/-- Exactly these keys down. -/
def down (l : List (Fin 16)) (s : State) : State := { s with keys := Vector.ofFn fun k => l.contains k }

/-- PC moved to 0x202. -/
def next (s : State) : State := s.setPc 0x202

/-- Stack depth and one value in every entry. -/
def nested (sp : Fin 17) (call : Word) (s : State) : State := { s with sp := sp, stack := Vector.replicate 16 call }

/-- FAULT as (code, PC, info). -/
def withFault (code : FaultCode) (info : BitVec 17) (s : State) : State := { s with fault := ⟨code, s.pc, info⟩ }

/-- A machine with another PROGRAM_END. -/
def endsAt (n : Nat) (s : State) : State := { s with params := { s.params with programEnd := n } }

/-! ### Well-formedness: ill-formed words and settings are refused -/

theorem test_zero_word_illegal : wordLegal 0x0000 = false := by decide
theorem test_0nnn_illegal : wordLegal 0x0123 = false := by decide
theorem test_5xyn_illegal : wordLegal 0x5011 = false := by decide
theorem test_9xyn_illegal : wordLegal 0x9331 = false := by decide
theorem test_8xy8_illegal : wordLegal 0x8018 = false := by decide
theorem test_ExFF_illegal : wordLegal 0xE09F = false := by decide
theorem test_FxFF_illegal : wordLegal 0xF0FF = false := by decide
theorem test_legal_words : wordLegal 0x00E0 = true ∧ wordLegal 0x8AB6 = true ∧ wordLegal 0xF565 = true := by decide
theorem test_programEnd_too_low : ¬ Params.wf ⟨0x201, defaultFontData⟩ := by decide
theorem test_programEnd_too_high : ¬ Params.wf ⟨0x1001, defaultFontData⟩ := by decide
theorem test_programEnd_bounds : Params.wf ⟨0x202, defaultFontData⟩ ∧ Params.wf ⟨0x1000, defaultFontData⟩ := by decide
theorem test_memory_wf_refuses :
    Memory.wf defaultFontData [(0x300, 1), (0x300, 2)] = false ∧ Memory.wf defaultFontData [(0x300, 0)] = false ∧
      Memory.wf defaultFontData [(0x1000, 1)] = false ∧ Memory.wf defaultFontData [(0, 0xF0)] = false := by decide
theorem test_decode_rejects : decode [0x00, 0x00] = .error (.illegal 0x0000) ∧ decode [0x60] = .error .truncated ∧
    decode [0x60, 0x05, 0xE0] = .ok (.ldImm 0 5, [0xE0]) := ⟨rfl, rfl, rfl⟩

/-! ### Every constructor from a word written out from its encoding -/

theorem test_decode_cls : decodeWord 0b0000000011100000#16 = some .cls := by decide
theorem test_decode_ret : decodeWord 0b0000000011101110#16 = some .ret := by decide
theorem test_decode_jp : decodeWord 0b0001101010111100#16 = some (.jp 0xABC) := by decide
theorem test_decode_call : decodeWord 0b0010000100100011#16 = some (.call 0x123) := by decide
theorem test_decode_seImm : decodeWord 0b0011010001000010#16 = some (.seImm 4 0x42) := by decide
theorem test_decode_sneImm : decodeWord 0b0100111110000001#16 = some (.sneImm 15 0x81) := by decide
theorem test_decode_seReg : decodeWord 0b0101000110000000#16 = some (.seReg 1 8) := by decide
theorem test_decode_ldImm : decodeWord 0b0110101001011100#16 = some (.ldImm 10 0x5C) := by decide
theorem test_decode_addImm : decodeWord 0b0111001011110001#16 = some (.addImm 2 0xF1) := by decide
theorem test_decode_ldReg : decodeWord 0b1000000100100000#16 = some (.ldReg 1 2) := by decide
theorem test_decode_orReg : decodeWord 0b1000001100100001#16 = some (.orReg 3 2) := by decide
theorem test_decode_andReg : decodeWord 0b1000010001010010#16 = some (.andReg 4 5) := by decide
theorem test_decode_xorReg : decodeWord 0b1000011001110011#16 = some (.xorReg 6 7) := by decide
theorem test_decode_addReg : decodeWord 0b1000111111100100#16 = some (.addReg 15 14) := by decide
theorem test_decode_sub : decodeWord 0b1000100010010101#16 = some (.sub 8 9) := by decide
theorem test_decode_shr : decodeWord 0b1000101010110110#16 = some (.shr 10 11) := by decide
theorem test_decode_subn : decodeWord 0b1000110011010111#16 = some (.subn 12 13) := by decide
theorem test_decode_shl : decodeWord 0b1000000111111110#16 = some (.shl 1 15) := by decide
theorem test_decode_sneReg : decodeWord 0b1001001000010000#16 = some (.sneReg 2 1) := by decide
theorem test_decode_ldI : decodeWord 0b1010001011110000#16 = some (.ldI 0x2F0) := by decide
theorem test_decode_jpV0 : decodeWord 0b1011111111111110#16 = some (.jpV0 0xFFE) := by decide
theorem test_decode_rnd : decodeWord 0b1100001100001111#16 = some (.rnd 3 0x0F) := by decide
theorem test_decode_drw : decodeWord 0b1101000100100101#16 = some (.drw 1 2 5) := by decide
theorem test_decode_skp : decodeWord 0b1110010110011110#16 = some (.skp 5) := by decide
theorem test_decode_sknp : decodeWord 0b1110001110100001#16 = some (.sknp 3) := by decide
theorem test_decode_ldVxDt : decodeWord 0b1111000100000111#16 = some (.ldVxDt 1) := by decide
theorem test_decode_ldVxK : decodeWord 0b1111010100001010#16 = some (.ldVxK 5) := by decide
theorem test_decode_ldDtVx : decodeWord 0b1111001000010101#16 = some (.ldDtVx 2) := by decide
theorem test_decode_ldStVx : decodeWord 0b1111001100011000#16 = some (.ldStVx 3) := by decide
theorem test_decode_addI : decodeWord 0b1111010000011110#16 = some (.addI 4) := by decide
theorem test_decode_ldF : decodeWord 0b1111011000101001#16 = some (.ldF 6) := by decide
theorem test_decode_ldB : decodeWord 0b1111011100110011#16 = some (.ldB 7) := by decide
theorem test_decode_ldMemVx : decodeWord 0b1111100001010101#16 = some (.ldMemVx 8) := by decide
theorem test_decode_ldVxMem : decodeWord 0b1111100101100101#16 = some (.ldVxMem 9) := by decide
theorem test_decode_table_word : decodeTableWord 16 0xD125 = some (.drw 1 2 5) ∧ decodeTableWord 16 0x801F = none := by decide

/-! ### Display -/

/-- V-D1 -/
theorem test_cls : Runs 0x00E0 (lit [(0, 0), (63, 31)]) (next ∘ lit []) := by decide
/-- V-D5: columns wrap at x = 63 -/
theorem test_drw_wraps_columns : Runs 0xD011 (fun s => ((s.setReg 0 0x3F).setI 0x300).writeBytes 0x300 [0xC0])
    (next ∘ lit [(0, 0), (63, 0)]) := by decide
/-- V-D8: one collision sets VF -/
theorem test_drw_collides : Runs 0xD011 (fun s => lit [(3, 0)] ((s.setI 0x300).writeBytes 0x300 [0xFF]))
    (fun s => next (lit [(0, 0), (1, 0), (2, 0), (4, 0), (5, 0), (6, 0), (7, 0)] (s.setReg 15 1))) := by decide
/-- V-D10: the third row is at 0x1000, nothing is drawn -/
theorem test_drw_faults : Runs 0xD013 (·.setI 0xFFE) (withFault .memoryOutOfRange 0x1000) := by decide
/-- The font bytes of digits A and B (20_memory.md R62) -/
theorem test_font : [0x32, 0x33, 0x34, 0x35, 0x36, 0x37, 0x50].map State.reset.readByte = [0xF0, 0x90, 0xF0, 0x90, 0x90, 0xE0, 0] := by
  decide

/-! ### Control flow -/

/-- V-C1 -/
theorem test_ret : Runs 0x00EE (fun s => { s with sp := 1, stack := s.stack.set 0 0x300 })
    (fun s => { s with sp := 0, pc := 0x302 }) := by decide
/-- V-C2 -/
theorem test_ret_empty : Runs 0x00EE id (withFault .stackUnderflow 0) := by decide
/-- V-C3 -/
theorem test_jp : Runs 0x1ABC id (·.setPc 0xABC) := by decide
/-- V-C5 -/
theorem test_call : Runs 0x2400 id (fun s => { s with stack := s.stack.set 0 0x200, sp := 1, pc := 0x400 }) := by decide
/-- V-C6 -/
theorem test_call_full : Runs 0x2400 (nested 16 0x202) (withFault .stackOverflow 0) := by decide
/-- V-C8, V-C9 -/
theorem test_seImm : Runs 0x3042 (·.setReg 0 0x42) (·.setPc 0x204) ∧ Runs 0x3042 (·.setReg 0 0x43) next := by decide
/-- V-C10, V-C11 -/
theorem test_sneImm : Runs 0x4042 (·.setReg 0 0x43) (·.setPc 0x204) ∧ Runs 0x4042 (·.setReg 0 0x42) next := by decide
/-- V-C12, V-C13 -/
theorem test_seReg : Runs 0x5010 (setRegs [(0, 7), (1, 7)]) (·.setPc 0x204) ∧ Runs 0x5010 (setRegs [(0, 7), (1, 8)]) next := by
  decide
/-- V-C15, V-C16 -/
theorem test_sneReg : Runs 0x9010 (setRegs [(0, 7), (1, 8)]) (·.setPc 0x204) ∧ Runs 0x9010 (setRegs [(0, 7), (1, 7)]) next := by
  decide
/-- V-C18, first STEP: the sum is not wrapped -/
theorem test_jpV0 : Runs 0xBFFF (·.setReg 0 0xFF) (·.setPc 0x10FE) := by decide

/-! ### Registers and ALU -/

/-- V-A1 -/
theorem test_ldImm : Runs 0x6A5C id (fun s => next (s.setReg 10 0x5C)) := by decide
/-- V-A2, V-A3 -/
theorem test_addImm : Runs 0x7002 (setRegs [(0, 0xFF), (15, 0xAA)]) (fun s => next (s.setReg 0 1)) ∧
    Runs 0x7F01 (·.setReg 15 0xFF) (fun s => next (s.setReg 15 0)) := by decide
/-- V-A4 -/
theorem test_ldReg : Runs 0x8120 (setRegs [(2, 0x33), (15, 0xAA)]) (fun s => next (s.setReg 1 0x33)) := by decide
/-- V-A5 -/
theorem test_orReg : Runs 0x8011 (setRegs [(0, 0xF0), (1, 0x0F), (15, 0xAA)]) (fun s => next (s.setReg 0 0xFF)) := by decide
/-- V-A6 -/
theorem test_andReg : Runs 0x8012 (setRegs [(0, 0xF0), (1, 0x3C), (15, 0xAA)]) (fun s => next (s.setReg 0 0x30)) := by decide
/-- V-A7 -/
theorem test_xorReg : Runs 0x8013 (setRegs [(0, 0xF0), (1, 0x3C), (15, 0xAA)]) (fun s => next (s.setReg 0 0xCC)) := by decide
/-- V-A9, V-A10 -/
theorem test_addReg_carry : Runs 0x8014 (setRegs [(0, 0xC8), (1, 0x64)]) (next ∘ setRegs [(0, 0x2C), (15, 1)]) ∧
    Runs 0x8014 (setRegs [(0, 0x7F), (1, 0x80), (15, 1)]) (next ∘ setRegs [(0, 0xFF), (15, 0)]) := by decide
/-- V-A12: x = F, the result wins; V-A13: y = F, the operand is the old VF -/
theorem test_addReg_VF : Runs 0x8FE4 (setRegs [(15, 0xFF), (14, 1)]) (fun s => next (s.setReg 15 0)) ∧
    Runs 0x80F4 (setRegs [(0, 1), (15, 0xFF)]) (next ∘ setRegs [(0, 0), (15, 1)]) := by decide
/-- V-A16, V-A17: equal operands give VF = 0 -/
theorem test_sub_strict : Runs 0x8015 (setRegs [(0, 3), (1, 5), (15, 1)]) (next ∘ setRegs [(0, 0xFE), (15, 0)]) ∧
    Runs 0x8015 (setRegs [(0, 5), (1, 5), (15, 1)]) (next ∘ setRegs [(0, 0), (15, 0)]) := by decide
/-- V-A15, V-A18 -/
theorem test_sub_flag : Runs 0x8015 (setRegs [(0, 5), (1, 3)]) (next ∘ setRegs [(0, 2), (15, 1)]) ∧
    Runs 0x8F15 (setRegs [(15, 5), (1, 3)]) (fun s => next (s.setReg 15 2)) := by decide
/-- V-A20: y is ignored, even y = F; V-A21 -/
theorem test_shr : Runs 0x80F6 (setRegs [(0, 0x80), (15, 1)]) (next ∘ setRegs [(0, 0x40), (15, 0)]) ∧
    Runs 0x8F06 (·.setReg 15 6) (fun s => next (s.setReg 15 3)) := by decide
/-- V-A22, V-A23 -/
theorem test_subn : Runs 0x8017 (setRegs [(0, 3), (1, 5)]) (next ∘ setRegs [(0, 2), (15, 1)]) ∧
    Runs 0x8017 (setRegs [(0, 5), (1, 3), (15, 1)]) (next ∘ setRegs [(0, 0xFE), (15, 0)]) := by decide
/-- V-A25, V-A27 -/
theorem test_shl : Runs 0x801E (·.setReg 0 0x81) (next ∘ setRegs [(0, 2), (15, 1)]) ∧
    Runs 0x8F0E (·.setReg 15 0xC0) (fun s => next (s.setReg 15 0x80)) := by decide
/-- V-A28 -/
theorem test_rnd : stateAfter (stepRand 0xA7 (start 0xC30F)) = some (next ((start 0xC30F).setReg 3 7)) := by decide
/-- V-A29: kk = 0 gives 0 -/
theorem test_rnd_zero : stateAfter (stepRand 0xA7 ((start 0xC300).setReg 3 9)) = some (next (start 0xC300)) := by decide

/-! ### Index register and memory -/

/-- V-M1 -/
theorem test_ldI : Runs 0xA2F0 id (fun s => next (s.setI 0x2F0)) := by decide
/-- V-M2, V-M3 -/
theorem test_addI : Runs 0xF01E (fun s => (s.setI 0xFFFF).setReg 0 2) (fun s => next (s.setI 1)) ∧
    Runs 0xF01E (fun s => (s.setI 0xFFF).setReg 0 1) (fun s => next (s.setI 0x1000)) := by decide
/-- V-M5 -/
theorem test_ldF : Runs 0xF429 (fun s => (s.setReg 4 0x0F).setI 0x300) (fun s => next (s.setI 0x4B)) := by decide
/-- V-M6 -/
theorem test_ldF_faults : Runs 0xF429 (·.setReg 4 0x10) (withFault .fontDigitOutOfRange 0x10) := by decide
/-- V-M9: a 0 written over a byte unlists it -/
theorem test_ldB : Runs 0xF033 (fun s => ((s.setReg 0 7).setI 0x300).writeBytes 0x300 [9, 9, 9])
    (fun s => next { s with mem := [(0x200, 0xF0), (0x201, 0x33), (0x302, 7)] }) := by decide
/-- V-M11: nothing is written at 0xFFE or 0xFFF -/
theorem test_ldB_faults : Runs 0xF033 (fun s => (s.setReg 0 0x7B).setI 0xFFE) (withFault .memoryOutOfRange 0x1000) := by decide
/-- V-M12: I is unchanged and V4 is not stored -/
theorem test_ldMemVx : Runs 0xF355 (fun s => setRegs [(0, 1), (1, 2), (2, 3), (3, 4), (4, 5)] (s.setI 0x300))
    (fun s => next { s with mem := s.mem ++ [(0x300, 1), (0x301, 2), (0x302, 3), (0x303, 4)] }) := by decide
/-- V-M15: 0xEA0 is HIGH when PROGRAM_END = 0xEA0 -/
theorem test_ldMemVx_faults : Runs 0xF155 (fun s => setRegs [(0, 1), (1, 2)] ((endsAt 0xEA0 s).setI 0xE9F))
    (withFault .reservedAccess 0xEA0) := by decide
/-- V-M16 -/
theorem test_ldVxMem : Runs 0xF365 (fun s => (s.setI 0x300).writeBytes 0x300 [9, 8, 7, 6])
    (next ∘ setRegs [(0, 9), (1, 8), (2, 7), (3, 6)]) := by decide
/-- V-M18: Fx65 cannot read the font -/
theorem test_ldVxMem_faults : Runs 0xF065 id (withFault .reservedAccess 0) := by decide

/-! ### Keypad and timers -/

/-- V-K1, V-K2 -/
theorem test_skp : Runs 0xE09E (fun s => down [5] (s.setReg 0 5)) (·.setPc 0x204) ∧
    Runs 0xE09E (fun s => down [4] (s.setReg 0 5)) next := by decide
/-- V-K5 -/
theorem test_skp_faults : Runs 0xE09E (·.setReg 0 0x10) (withFault .keyIndexOutOfRange 0x10) := by decide
/-- V-K3, V-K4 -/
theorem test_sknp : Runs 0xE0A1 (·.setReg 0 5) (·.setPc 0x204) ∧ Runs 0xE0A1 (fun s => down [5] (s.setReg 0 5)) next := by
  decide
/-- V-K6 -/
theorem test_sknp_faults : Runs 0xE0A1 (·.setReg 0 0xFF) (withFault .keyIndexOutOfRange 0xFF) := by decide
/-- V-K7 -/
theorem test_ldVxDt : Runs 0xF307 (·.setDt 60) (fun s => next (s.setReg 3 0x3C)) := by decide
/-- V-K8: no key down, no change -/
theorem test_ldVxK_waits : Runs 0xF10A (·.setReg 1 0x44) id := by decide
/-- V-K9: the smallest key down -/
theorem test_ldVxK_smallest : Runs 0xF10A (down [12, 9]) (fun s => next (s.setReg 1 9)) := by decide
/-- V-K11, V-K13 -/
theorem test_ldDtVx : Runs 0xF015 (·.setReg 0 0x0A) (fun s => next (s.setDt 10)) ∧ Runs 0xF115 (·.setDt 7) (fun s => next (s.setDt 0)) := by
  decide
/-- V-K12 -/
theorem test_ldStVx : Runs 0xF118 (·.setReg 1 2) (fun s => next (s.setSt 2)) := by decide

/-! ### Fetch, decode and the faulted core -/

/-- V-F2 -/
theorem test_illegal_word : Runs 0x0123 id (withFault .illegalInstruction 0x123) := by decide
/-- V-C4, second STEP: a fetch in the reserved region -/
theorem test_fetch_low : Runs 0x1100 (·.setPc 0x100) (withFault .fetchOutOfRange 0x100) := by decide
/-- V-C20, second STEP: PC = 0xFFF is in range, PC + 1 is not -/
theorem test_fetch_end : Runs 0x1FFF (·.setPc 0xFFF) (withFault .fetchOutOfRange 0x1000) := by decide
/-- V-C21, second STEP: a word at an odd address -/
theorem test_fetch_odd : Runs 0x1203 (fun s => (s.setPc 0x203).writeBytes 0x203 [0x60, 0x77])
    (fun s => (s.setReg 0 0x77).setPc 0x205) := by decide
/-- V-F9 -/
theorem test_faulted_core : Runs 0x6001 (withFault .stackUnderflow 0) id := by decide
/-- V-F13, second STEP: 0x202 is HIGH when PROGRAM_END = 0x202 -/
theorem test_fetch_programEnd : Runs 0x1202 (fun s => (endsAt 0x202 s).setPc 0x202) (withFault .fetchOutOfRange 0x202) := by
  decide

/-! ### Host transactions -/

/-- V-H3 and V-H5, on the smallest machine: two bytes fit, three are rejected, none is accepted. -/
theorem test_loadRom : respond (.loadRom [1, 2]) (endsAt 0x202 State.reset) = .ok ∧
    respond (.loadRom [1, 2, 3]) (endsAt 0x202 State.reset) = .romTooLarge ∧
    loadRom [] State.reset = State.reset ∧ (loadRom [1, 2] (endsAt 0x202 State.reset)).mem = [(0x200, 1), (0x201, 2)] := by
  decide
/-- V-T2: DT at 0 stays 0 -/
theorem test_tick : tick (State.reset.setSt 3) = State.reset.setSt 2 := by decide
/-- V-H9 -/
theorem test_sound : respond .readSound (State.reset.setSt 1) = .sound true ∧ respond .readSound State.reset = .sound false := by
  decide
/-- `read state` answers the elements R297 lists, and a transaction without an output answers none. -/
theorem test_readState : (readState (start 0x6005)).mem[0x201] = 0x05 ∧ (readState (start 0x6005)).pc = 0x200 ∧
    respond .tick State.reset = .noOutput := ⟨by simp [readState]; rfl, rfl, rfl⟩
/-- V-H1: RESET from a faulted core -/
theorem test_reset : resetCore (withFault .stackUnderflow 0 ((start 0x6001).setReg 3 7)) = State.reset := by decide

/-! ### The end of a run (60_exceptions.md R305) -/

/-- What a test looks at of the end of a run. -/
def endOf (sched : List Transaction) (s : State) : Option (RunEnd × Nat) := (firstEnd sched s).map fun e => (e.kind, e.after)

/-- LOAD_ROM of 12 00 has reached no end: no STEP has been taken, and a TICK is none. -/
theorem test_no_end_before_step : endOf [.loadRom [0x12, 0x00], .tick] State.reset = none := rfl
/-- The first STEP reaches it, and later ones are not the first. -/
theorem test_first_end_is_first_step : endOf [.loadRom [0x12, 0x00], .tick, .step 0, .step 0] State.reset = some (.normal, 3) := rfl
/-- V-F11: 00EE on an empty stack ends the run in error at once, and so does a faulted start. -/
theorem test_end_in_error : endOf [.step 0, .step 0] (start 0x00EE) = some (.inError, 1) ∧
    endOf [.step 0] (withFault .stackUnderflow 0 (start 0x1200)) = some (.inError, 0) := ⟨rfl, rfl⟩

/-! ### Witnesses: the hypotheses of each statement of Obligations.lean, each clause at a boundary of its range -/

/-- The reset state with I = a. -/
def iAt (a : Word) : State := State.reset.setI a

/-- I + k is in the program region. -/
abbrev Inside (s : State) (k : Nat) : Prop := InProgram s.params (s.i.toNat + k)

/-- OnlyClsDrwAndResetChangeCells: a STEP that changes a cell, and an instruction other than DRW that has a next state. -/
theorem witness_cell_changes : ∃ t, transact (.step 0) ((start 0x00E0).setFb (FrameBuffer.blank.toggle 63 31)) = .next t ∧
    t.observe (.cell 63 31) ≠ ((start 0x00E0).setFb (FrameBuffer.blank.toggle 63 31)).observe (.cell 63 31) :=
  ⟨_, rfl, by decide⟩
theorem witness_other_than_drw : (∀ x y n, Instr.cls ≠ .drw x y n) ∧ ∃ t, exec .cls State.reset = .next t :=
  ⟨by simp, _, rfl⟩

/-- DrwXorsSpriteOrFaults: rows up to 0xFFF, no row at all, and the first row at 0x1000 the third or the first. -/
theorem witness_drw_rows : State.reset.params.wf ∧ (∀ r : Fin 16, r < 5 → (iAt 0xFFB).i.toNat + r.val < 0x1000) ∧
    (∀ r : Fin 16, r < 0 → (iAt 0xFFFF).i.toNat + r.val < 0x1000) := by decide
theorem witness_drw_fault : (2 : Fin 16) < 3 ∧ 0x1000 ≤ (iAt 0xFFE).i.toNat + (2 : Fin 16).val ∧
    (∀ q : Fin 16, q < 2 → (iAt 0xFFE).i.toNat + q.val < 0x1000) ∧ 0x1000 ≤ (iAt 0x1000).i.toNat + (0 : Fin 16).val ∧
    (∀ q : Fin 16, q < 0 → (iAt 0x1000).i.toNat + q.val < 0x1000) := by decide

/-- DrwTwiceRestoresCells. -/
theorem witness_drw_twice : ∃ t u, (0 : Reg) ≠ VF ∧ (1 : Reg) ≠ VF ∧ State.reset.params.wf ∧
    (∀ r : Fin 16, r < 1 → State.reset.i.toNat + r.val < 0x1000) ∧ exec (.drw 0 1 1) State.reset = .next t ∧
    exec (.drw 0 1 1) t = .next u := ⟨_, _, by decide, by decide, by decide, by decide, rfl, rfl⟩

/-- RetPopsCallSiteOrFaults and CallPushesOwnAddressOrFaults: depths 1, 16 and 0; depths 0, 15 and 16. -/
theorem witness_depths : (nested 1 0x202 State.reset).observe .sp = (0 : Fin 16).val + 1 ∧
    (nested 16 0x202 State.reset).observe .sp = (15 : Fin 16).val + 1 ∧ State.reset.observe .sp = 0 ∧
    (nested 15 0x202 State.reset).observe .sp = (15 : Fin 16).val ∧ (nested 16 0x202 State.reset).observe .sp = 16 := by
  decide

/-- The invariant holds at depth 16 with the highest call site, 0xFFE, and PC at its bound. -/
theorem witness_inv_nested : ((nested 16 0xFFE (start 0x6005)).setPc 0x10FE).Inv := .of_clear rfl (by decide)

/-- CallThenRetResumesAfterCall, at depth 15. -/
theorem witness_call_ret : ∃ s : State, s.params.wf ∧ s.fault.code = .none ∧ s.observe .sp < 16 ∧
    s.fetchDecode = .ok (.call 0x204) ∧ ({ s with pc := zextAddr 0x204 } : State).fetchDecode = .ok .ret :=
  ⟨nested 15 0x202 ((start 0x2204).writeBytes 0x204 [0x00, 0xEE]), by decide, rfl, by decide, rfl, rfl⟩

/-- TransferCompletesThenFetchFaults: targets 0x1FF, 0xFFF and 0x10FE. -/
theorem witness_targets : (start 0x11FF).fetchDecode = .ok (.jp 0x1FF) ∧ ¬ InProgram defaultParams 0x1FF ∧
    (start 0x2FFF).fetchDecode = .ok (.call 0xFFF) ∧ (start 0x2FFF).observe .sp < 16 ∧ InProgram defaultParams 0xFFF ∧
    ¬ InProgram defaultParams (0xFFF + 1) ∧ ((start 0xBFFF).setReg 0 0xFF).fetchDecode = .ok (.jpV0 0xFFF) ∧
    0x10FE = ((start 0xBFFF).setReg 0 0xFF).V 0 + (0xFFF : Addr).toNat ∧ ¬ InProgram defaultParams 0x10FE :=
  ⟨rfl, by decide, rfl, by decide, by decide, by decide, rfl, by decide, by decide⟩

/-- StepRndMasksRand; RndUsesSuppliedOrFreeDraw with a draw and without. -/
theorem witness_rnd : (start 0xC30F).fault.code = .none ∧ (start 0xC30F).fetchDecode = .ok (.rnd 3 0x0F) := ⟨rfl, rfl⟩
theorem witness_draws : ({ State.reset with draws := [0xA7] } : State).draws = 0xA7 :: [] ∧ State.reset.draws = [] :=
  ⟨rfl, rfl⟩

/-- OnlyRndReadsTheDraw: a running core at another instruction, and a faulted one at Cxkk. -/
theorem witness_no_rnd : (start 0x6005).fault.code = .none → ∀ x kk, (start 0x6005).fetchDecode ≠ .ok (.rnd x kk) := by
  intro _ x kk h
  have hd : (start 0x6005).fetchDecode = .ok (.ldImm 0 5) := rfl
  rw [hd] at h
  cases h
theorem witness_faulted_rnd : (withFault .stackUnderflow 0 (start 0xC30F)).fetchDecode = .ok (.rnd 3 0x0F) ∧
    ((withFault .stackUnderflow 0 (start 0xC30F)).fault.code = .none → ∀ x kk,
      (withFault .stackUnderflow 0 (start 0xC30F)).fetchDecode ≠ .ok (.rnd x kk)) :=
  ⟨rfl, fun h => absurd h (by decide)⟩

/-- FontAddressOrFault and KeySkipsOrFault: the last digit and the first number above it. -/
theorem witness_digits : (State.reset.setReg 4 0x0F).V 4 ≤ 0xF ∧ 0xF < (State.reset.setReg 4 0x10).V 4 ∧
    State.reset.V 0 = (0 : Fin 16).val ∧ (State.reset.setReg 4 0x0F).V 4 = (15 : Fin 16).val := by decide

/-- BcdStoresDigitsOrFaults: both ends of the program region, and each of the three addresses the first to fail. -/
theorem witness_bcd : (iAt 0).params.wf ∧ (∀ k : Fin 3, Inside (iAt 0x200) k) ∧ (∀ k : Fin 3, Inside (iAt 0xFFD) k) ∧
    ¬ Inside (iAt 0x1FF) (0 : Fin 3) ∧ (¬ Inside (iAt 0xFFF) (1 : Fin 3) ∧ ∀ j : Fin 3, j < 1 → Inside (iAt 0xFFF) j) ∧
    (¬ Inside (iAt 0xFFE) (2 : Fin 3) ∧ ∀ j : Fin 3, j < 2 → Inside (iAt 0xFFE) j) := by decide

/-- StoreBlockOrFaults and LoadBlockOrFaults: sixteen registers that end at 0xFFF, one at 0x200, and a block whose last
address alone is outside, below 0x1000 (PROGRAM_END = 0xEA0) and at it. -/
theorem witness_block : (endsAt 0xEA0 (iAt 0)).params.wf ∧ (∀ k : Reg, k ≤ 15 → Inside (iAt 0xFF0) k) ∧
    (∀ k : Reg, k ≤ 0 → Inside (iAt 0x200) k) ∧ ¬ Inside (endsAt 0xEA0 (iAt 0xE9F)) (1 : Reg) ∧
    (∀ j : Reg, j < 1 → Inside (endsAt 0xEA0 (iAt 0xE9F)) j) ∧ ¬ Inside (iAt 0xFF1) (15 : Reg) ∧
    (∀ j : Reg, j < 15 → Inside (iAt 0xFF1) j) := by decide

/-- StoreThenLoadRestoresRegisters, at the last block of the program region. -/
theorem witness_store_load : ∃ t u, (∀ k : Reg, k ≤ 15 → InProgram State.reset.params ((State.reset.setI 0xFF0).i.toNat + k.val)) ∧
    exec (.ldMemVx 15) (State.reset.setI 0xFF0) = .next t ∧
    exec (.ldVxMem 15) { t with v := Vector.replicate 16 7 } = .next u := ⟨_, _, by decide, rfl, rfl⟩

/-- StoredBytesAreFetchedNext, at an odd address. -/
theorem witness_stored_code : ∃ t, (0 : Reg) < 1 ∧
    (∀ j : Reg, j ≤ 1 → InProgram State.reset.params ((State.reset.setI 0x20B).i.toNat + j.val)) ∧
    (0x20B : Word).toNat = (State.reset.setI 0x20B).i.toNat + (0 : Reg).val ∧
    exec (.ldMemVx 1) (State.reset.setI 0x20B) = .next t := ⟨_, by decide, by decide, by decide, rfl⟩

/-- WaitKeyStoresSmallestKey: the lowest key, the highest alone, and none. -/
theorem witness_keys : (down [0, 15] State.reset).observe (.key 0) = 1 ∧ (down [15] State.reset).observe (.key 15) = 1 ∧
    (∀ j : Fin 16, j < 15 → (down [15] State.reset).observe (.key j) = 0) ∧
    (∀ k : Fin 16, State.reset.observe (.key k) = 0) := by decide

/-- NoRunDependsOnSoundTimer and NoRunDependsOnStaleStack: two states that differ, and a schedule. -/
theorem witness_sound_timer : SameButSt (start 0x6005) ((start 0x6005).setSt 9) ∧
    ∃ s', runSchedule [.step 0, .tick] (start 0x6005) = .next s' := ⟨rfl, _, rfl⟩
theorem witness_stale_stack : SameButStaleStack (start 0x6005) { start 0x6005 with stack := Vector.replicate 16 9 } ∧
    ∃ s', runSchedule [.step 0, .tick] (start 0x6005) = .next s' :=
  ⟨⟨rfl, fun _ h => absurd h (Nat.not_lt_zero _)⟩, _, rfl⟩

/-- The reset state with PC = a. -/
def pcAt (a : Word) : State := State.reset.setPc a

/-- PC + k is in the program region. -/
abbrev Fetchable (s : State) (k : Nat) : Prop := InProgram s.params (s.pc.toNat + k)

/-- StepFetchesDecodesExecutes: a faulted core; PC = 0x1FF, 0xFFF and 0xFFE; an illegal and a legal word. -/
theorem witness_step : (withFault .stackUnderflow 0 State.reset).fault.code ≠ .none ∧ State.reset.fault.code = .none ∧
    ¬ Fetchable (pcAt 0x1FF) 0 ∧ (Fetchable (pcAt 0xFFF) 0 ∧ ¬ Fetchable (pcAt 0xFFF) 1) ∧
    (Fetchable (pcAt 0xFFE) 0 ∧ Fetchable (pcAt 0xFFE) 1) ∧
    (0x0123 : Word).toNat = (start 0x0123).observe (.mem 0x200) * 256 + (start 0x0123).observe (.mem 0x201) ∧
    decodeWord 0x0123 = none ∧ decodeWord 0x6005 = some (.ldImm 0 5) := by decide

/-- StepIsExecOfDecodedBytes. -/
theorem witness_decoded_bytes : (start 0xD125).fault.code = .none ∧
    InProgram (start 0xD125).params (start 0xD125).pc.toNat ∧ InProgram (start 0xD125).params ((start 0xD125).pc.toNat + 1) ∧
    decode [(start 0xD125).readByte (start 0xD125).pc.toNat, (start 0xD125).readByte ((start 0xD125).pc.toNat + 1)] =
      .ok (.drw 1 2 5, []) := ⟨rfl, by decide, by decide, rfl⟩

/-- TableRowIsCompleteEffect: ADD VF, VE leaves VE. -/
theorem witness_frame : (∃ t, exec (.addReg 15 14) State.reset = .next t) ∧
    touches State.reset (.addReg 15 14) (.reg 14) = false := ⟨⟨_, rfl⟩, by decide⟩

/-- PcUpdateIsTheTables, FaultsArePrecise and InstructionsRaiseOnlyTheirCodes: one that completes and one that faults. -/
theorem witness_completes : ∃ t, State.reset.fault.code = .none ∧ exec (.seImm 0 0) State.reset = .next t ∧ t.fault.code = .none :=
  ⟨_, rfl, rfl, rfl⟩
theorem witness_faults : ∃ t, (start 0x00EE).fault.code = .none ∧ exec .ret (start 0x00EE) = .next t ∧
    step (start 0x00EE) = .next t ∧ t.fault.code ≠ .none := ⟨_, rfl, rfl, rfl, by decide⟩
theorem witness_info : (0x1FFFF : Nat) < 2 ^ 17 := by decide

/-- PcNeverWraps: a jump to 0x10FE, which completes and cannot be fetched from. -/
theorem witness_pc : ∃ t, ((start 0xBFFF).setReg 0 0xFF).Inv ∧ ((start 0xBFFF).setReg 0 0xFF).fault.code = .none ∧
    ((start 0xBFFF).setReg 0 0xFF).fetchDecode = .ok (.jpV0 0xFFF) ∧ step ((start 0xBFFF).setReg 0 0xFF) = .next t ∧
    t.fault.code = .none ∧ ¬ InProgram t.params t.pc.toNat :=
  ⟨_, .of_clear rfl (by decide), rfl, rfl, rfl, rfl, by decide⟩

/-- EncodeInvertsDecode and DecodeAgreesWithOpcodeTable: a decoded word, and a row that admits one. -/
theorem witness_decoded_word : decodeWord 0x80F6 = some (.shr 0 15) ∧ (⟨0xF00F, 0x8006⟩ : OpRow) ∈ opcodeRows ∧
    (⟨0xF00F, 0x8006⟩ : OpRow).admits 0x80F6 = true := by decide

/-- FaultHoldsUntilReset: a faulted core and a schedule without RESET; a TICK on the same core not faulted. -/
theorem witness_fault_holds : ∃ t u, (withFault .stackUnderflow 0 State.reset).fault.code ≠ .none ∧
    Transaction.reset ∉ [Transaction.step 0, .tick, .readFault] ∧
    runSchedule [.step 0, .tick, .readFault] (withFault .stackUnderflow 0 State.reset) = .next t ∧
    Transaction.tick ≠ .reset ∧ (∀ rand, Transaction.tick ≠ .step rand) ∧
    transact .tick { withFault .stackUnderflow 0 State.reset with fault := .clear } = .next u :=
  ⟨_, _, by decide, by decide, rfl, by decide, by simp, rfl⟩

/-- AdmissionByRegion: the settings at both bounds, and each side of each region's edge. -/
theorem witness_regions : Params.wf ⟨0x202, defaultFontData⟩ ∧ Params.wf defaultParams ∧
    [0x1FF, 0x200, 0xFFF, 0x1000].map (region defaultParams) = [.low, .prog, .prog, .none] ∧
    [0x1FF, 0x201, 0x202, 0xFFF, 0x1000].map (region ⟨0x202, defaultFontData⟩) = [.low, .prog, .high, .high, .none] := by
  decide

/-- StepKeepsInvariant, from a running core and from a faulted one. -/
theorem witness_inv_step : ∃ t, (start 0x2400).Inv ∧ step (start 0x2400) = .next t := ⟨_, .of_clear rfl (by decide), rfl⟩
theorem witness_inv_faulted : ((start 0x00EE).raise .stackUnderflow 0).Inv ∧
    ((start 0x00EE).raise .stackUnderflow 0).fault.code ≠ .none :=
  ⟨.raise (.of_clear rfl (by decide)) ⟨rfl, rfl⟩, by decide⟩

/-- SchedulesKeepInvariant and ReservedMemoryKeepsResetBytes: a schedule, and addresses outside the program region. -/
theorem witness_schedule : ∃ t, (start 0x2400).Inv ∧ runSchedule [.tick, .step 0] (start 0x2400) = .next t ∧
    ¬ InProgram (start 0x2400).params 0x1FF ∧ ¬ InProgram (start 0x2400).params 0x1000 :=
  ⟨_, .of_clear rfl (by decide), rfl, by decide, by decide⟩

/-- LoadRomCopiesOrRejects: a ROM of exactly the capacity of the smallest machine, and one byte more. -/
theorem witness_rom : ([1, 2] : List Byte).length ≤ (endsAt 0x202 State.reset).params.programEnd - 0x200 ∧
    (endsAt 0x202 State.reset).params.programEnd - 0x200 < ([1, 2, 3] : List Byte).length := by decide

/-- SetKeysAloneSetsLatch: a schedule with no SET_KEYS and no RESET. -/
theorem witness_no_setKeys : ∃ t, (∀ k, Transaction.setKeys k ∉ [Transaction.step 0, .tick]) ∧
    Transaction.reset ∉ [Transaction.step 0, .tick] ∧ runSchedule [.step 0, .tick] (start 0x6005) = .next t :=
  ⟨_, by simp, by decide, rfl⟩

/-- ReadsAnswerAndChangeNothing, its STEP rows: a faulted core, a fetch that fails, another instruction and RND (its ROM
rows: `witness_rom`). -/
theorem witness_transaction_rows : (withFault .stackUnderflow 0 State.reset).fault.code ≠ .none ∧
    ((start 0x0123).fault.code = .none ∧ (start 0x0123).fetchDecode = .error (.illegalInstruction, 0x0123)) ∧
    ((start 0x6005).fault.code = .none ∧ (start 0x6005).fetchDecode = .ok (.ldImm 0 5) ∧
      ∀ x kk, Instr.ldImm 0 5 ≠ .rnd x kk) ∧
    ((start 0xC30F).fault.code = .none ∧ (start 0xC30F).fetchDecode = .ok (.rnd 3 0x0F)) :=
  ⟨by decide, ⟨rfl, rfl⟩, ⟨rfl, rfl, by simp⟩, rfl, rfl⟩

/-- BootRunsFirstWordOfRom: a ROM of two bytes, which fills the smallest machine. -/
theorem witness_boot : (endsAt 0x202 State.reset).params.wf ∧
    ([] : List Byte).length + 2 ≤ (endsAt 0x202 State.reset).params.programEnd - 0x200 ∧
    decodeWord (wordOfBytes 0x60 0x05) = some (.ldImm 0 5) := by decide

/-- RunEndsAtFirstEnd: the run of `witness_first_end`, and a later schedule of the four kinds it allows. -/
theorem witness_later : ∀ tr ∈ [Transaction.step 0, .tick, .setKeys (Vector.replicate 16 true), .readSound],
    tr ≠ .reset ∧ ∀ bytes, tr ≠ .loadRom bytes := by simp
theorem witness_first_end : ∃ e, firstEnd [.tick, .step 0] (start 0x1200) = some e ∧ e.kind = .normal ∧ e.after = 2 :=
  ⟨_, rfl, rfl, rfl⟩

/-- EndedRunsStayEnded: a jump to itself, and a faulted core. -/
theorem witness_ended : (start 0x1200).endsNormally = true ∧ (withFault .stackUnderflow 0 State.reset).endsInError = true := by
  decide

end Sys2Proof.Tests
end

section
/-! PROOFS. What an instruction that completes does, what each operation leaves unchanged, and what a STEP does when its
fetch fails (40_execution_cycle.md R122, R126, R128, R132). -/

namespace Sys2Proof.Machine

/-! ### The instructions guarded by an admission check: everything each can do -/

section
variable {s t : State}

/-- What a guarded effect can be: the effect when the check passed, else the fault entry of the failure (R130). -/
theorem guarded_next_cases {o : Option Failure} {u : State}
    (h : Host.Outcome.next (φ := Fault) (ρ := Refusal) (guarded o s u) = .next t) :
    (o = none ∧ t = u) ∨ ∃ f, o = some f ∧ t = s.raise f.1 f.2 := by
  cases h
  exact guarded_cases o s u

/-- The framebuffer a Dxyn that completes leaves, and whether it turned a lit cell off (41_display.md R141). -/
def State.drawn (s : State) (x y : Reg) (n : Fin 16) : Canvas :=
  drawSprite (s.reg x).toNat (s.reg y).toNat n (fun r => s.readByte (s.i.toNat + r)) (s.fb, false)

theorem execDrw_cases {x y : Reg} {n : Fin 16} (h : execDrw x y n s = .next t) :
    (checkRange s.params .sprite s.i.toNat n = none ∧
      t = ((s.setFb (s.drawn x y n).1).setReg VF (collisionFlag (s.drawn x y n).2)).advance) ∨
    ∃ f, checkRange s.params .sprite s.i.toNat n = some f ∧ t = s.raise f.1 f.2 := guarded_next_cases h

theorem execLdB_cases {x : Reg} (h : execLdB x s = .next t) :
    (checkRange s.params .block s.i.toNat 3 = none ∧ t = (s.writeBytes s.i.toNat (bcdBytes (s.reg x))).advance) ∨
    ∃ f, checkRange s.params .block s.i.toNat 3 = some f ∧ t = s.raise f.1 f.2 := guarded_next_cases h

theorem execLdMemVx_cases {x : Reg} (h : execLdMemVx x s = .next t) :
    (checkRange s.params .block s.i.toNat (x.val + 1) = none ∧
      t = (s.writeBytes s.i.toNat (s.regBlock x)).advance) ∨
    ∃ f, checkRange s.params .block s.i.toNat (x.val + 1) = some f ∧ t = s.raise f.1 f.2 := guarded_next_cases h

theorem execLdVxMem_cases {x : Reg} (h : execLdVxMem x s = .next t) :
    (checkRange s.params .block s.i.toNat (x.val + 1) = none ∧
      t = (s.loadRegs x fun k => s.readByte (s.i.toNat + k)).advance) ∨
    ∃ f, checkRange s.params .block s.i.toNat (x.val + 1) = some f ∧ t = s.raise f.1 f.2 := guarded_next_cases h

end

/-! ### The codes a failed check can name (20_memory.md R64) -/

theorem checkRange_code {p : Params} {k : Access} {base n : Nat} {f : Failure} (h : checkRange p k base n = some f) :
    ∃ r, refusedBy k r = some f.1 := by
  obtain ⟨q, -, hq, -⟩ := (checkRange_eq_some_iff _ _ _ _ _).mp h
  obtain ⟨c, hc, rfl⟩ := Option.map_eq_some_iff.mp hq
  exact ⟨_, hc⟩

theorem checkRange_sprite_code {p : Params} {base n : Nat} {f : Failure} (h : checkRange p .sprite base n = some f) :
    f.1 = .memoryOutOfRange := by
  obtain ⟨r, hr⟩ := checkRange_code h
  cases r <;> simp_all [refusedBy]

theorem checkRange_block_code {p : Params} {base n : Nat} {f : Failure} (h : checkRange p .block base n = some f) :
    f.1 = .memoryOutOfRange ∨ f.1 = .reservedAccess := by
  obtain ⟨r, hr⟩ := checkRange_code h
  cases r <;> simp_all [refusedBy]

/-! ### An instruction raises a code of its own or completes -/

/-- `i` takes `s` to `t` without raising a fault: for the instructions that can fault or wait, the passing check and the
state it lets through; for any other, what its meaning gives. -/
def Completes (i : Instr) (s t : State) : Prop :=
  match i with
  | .ret       => ∃ h : 0 < s.sp.val, t = s.pop.setPc (s.top h + 2)
  | .call nnn  => ∃ h : s.sp.val < 16, t = (s.push s.pc h).setPc (zextAddr nnn)
  | .skp x     => ∃ k : Fin 16, (s.reg x).toNat = k.val ∧ t = s.skipIf (s.keyDown k)
  | .sknp x    => ∃ k : Fin 16, (s.reg x).toNat = k.val ∧ t = s.skipIf (!s.keyDown k)
  | .ldVxK x   => (∃ k : Fin 16, s.firstKeyDown = some k ∧ t = (s.setReg x (digitByte k)).advance) ∨
      (s.firstKeyDown = none ∧ t = s)
  | .ldF x     => ∃ d : Fin 16, (s.reg x).toNat = d.val ∧ t = (s.setI (fontAddr d)).advance
  | .drw x y n => checkRange s.params .sprite s.i.toNat n = none ∧
      t = ((s.setFb (s.drawn x y n).1).setReg VF (collisionFlag (s.drawn x y n).2)).advance
  | .ldB x     => checkRange s.params .block s.i.toNat 3 = none ∧
      t = (s.writeBytes s.i.toNat (bcdBytes (s.reg x))).advance
  | .ldMemVx x => checkRange s.params .block s.i.toNat (x.val + 1) = none ∧
      t = (s.writeBytes s.i.toNat (s.regBlock x)).advance
  | .ldVxMem x => checkRange s.params .block s.i.toNat (x.val + 1) = none ∧
      t = (s.loadRegs x fun k => s.readByte (s.i.toNat + k)).advance
  | i          => exec i s = .next t

/-- Everything an instruction can do: its completed effect, or the fault entry of a code it may raise. -/
theorem exec_cases {i : Instr} {s t : State} (h : exec i s = .next t) :
    Completes i s t ∨ ∃ c n, mayRaise i c = true ∧ t = s.raise c n := by
  cases i
  case ret => exact (execRet_cases h).imp_right fun ⟨_, ht⟩ => ⟨_, _, rfl, ht⟩
  case call => exact (execCall_cases h).imp_right fun ⟨_, ht⟩ => ⟨_, _, rfl, ht⟩
  case skp => exact (execSkp_cases h).imp_right fun ⟨_, ht⟩ => ⟨_, _, rfl, ht⟩
  case sknp => exact (execSknp_cases h).imp_right fun ⟨_, ht⟩ => ⟨_, _, rfl, ht⟩
  case ldF => exact (execLdF_cases h).imp_right fun ⟨_, ht⟩ => ⟨_, _, rfl, ht⟩
  case drw =>
    exact (execDrw_cases h).imp_right fun ⟨_, hf, ht⟩ => ⟨_, _, by simp [mayRaise, checkRange_sprite_code hf], ht⟩
  case ldB =>
    exact (execLdB_cases h).imp_right fun ⟨_, hf, ht⟩ => ⟨_, _, by simpa [mayRaise] using checkRange_block_code hf, ht⟩
  case ldMemVx =>
    exact (execLdMemVx_cases h).imp_right fun ⟨_, hf, ht⟩ =>
      ⟨_, _, by simpa [mayRaise] using checkRange_block_code hf, ht⟩
  case ldVxMem =>
    exact (execLdVxMem_cases h).imp_right fun ⟨_, hf, ht⟩ =>
      ⟨_, _, by simpa [mayRaise] using checkRange_block_code hf, ht⟩
  case ldVxK => exact .inl (execLdVxK_cases h)
  all_goals exact .inl h

theorem mayRaise_ne_none {i : Instr} {c : FaultCode} (h : mayRaise i c = true) : c ≠ .none := by
  rintro rfl
  cases i <;> cases h

/-- An instruction that may raise a fault names the three fields of FAULT among what it may write. -/
theorem touches_fault_of_mayRaise {i : Instr} {c : FaultCode} (h : mayRaise i c = true) (s : State) :
    touches s i .faultCode = true ∧ touches s i .faultPc = true ∧ touches s i .faultInfo = true := by
  cases i <;> simp_all [mayRaise, touches]

/-! ### What each operation leaves unchanged (R126) -/

section
variable {s : State} {e : Element}

theorem State.setReg_observe_ne {x : Reg} (b : Byte) (h : e ≠ .reg x) : (s.setReg x b).observe e = s.observe e := by
  cases e <;> simp_all [State.setReg_reg]

theorem State.setPc_observe_ne (a : Word) (h : e ≠ .pc) : (s.setPc a).observe e = s.observe e := by
  cases e <;> simp_all

theorem State.setI_observe_ne (a : Word) (h : e ≠ .i) : (s.setI a).observe e = s.observe e := by
  cases e <;> simp_all

theorem State.setDt_observe_ne (b : Byte) (h : e ≠ .dt) : (s.setDt b).observe e = s.observe e := by
  cases e <;> simp_all

theorem State.setSt_observe_ne (b : Byte) (h : e ≠ .st) : (s.setSt b).observe e = s.observe e := by
  cases e <;> simp_all

theorem State.setFb_observe_ne (f : FrameBuffer) (h : ∀ cx cy, e ≠ .cell cx cy) :
    (s.setFb f).observe e = s.observe e := by
  cases e <;> simp_all

theorem State.advance_observe_ne (h : e ≠ .pc) : s.advance.observe e = s.observe e := State.setPc_observe_ne _ h

theorem State.skipIf_observe_ne (c : Bool) (h : e ≠ .pc) : (s.skipIf c).observe e = s.observe e :=
  State.setPc_observe_ne _ h

theorem State.setFlagAndReg_observe_ne {x : Reg} (f b : Byte) (hf : e ≠ .reg VF) (hx : e ≠ .reg x) :
    (s.setFlagAndReg x f b).observe e = s.observe e := by
  rw [State.setFlagAndReg, State.setReg_observe_ne b hx, State.setReg_observe_ne f hf]

theorem State.loadRegs_observe_ne {x : Reg} (g : Nat → Byte) (h : ∀ r ≤ x, e ≠ .reg r) :
    (s.loadRegs x g).observe e = s.observe e := by
  cases e
  case reg r =>
    have hr : ¬ r ≤ x := fun hr => h r hr rfl
    simp only [State.observe_reg, State.loadRegs_reg, if_neg hr]
  all_goals simp

theorem State.writeBytes_observe_ne {a : Nat} {bs : List Byte} (h : ∀ b, a ≤ b → b < a + bs.length → e ≠ .mem b) :
    (s.writeBytes a bs).observe e = s.observe e := by
  cases e
  case mem b =>
    have hb : ¬ (a ≤ b ∧ b - a < bs.length) := fun hb => h b hb.1 (by omega) rfl
    simp only [State.observe_mem, State.writeBytes_readByte, dif_neg hb]
  all_goals simp

theorem State.push_observe_ne (a : Word) (hd : s.sp.val < 16) (hs : e ≠ .sp)
    (hj : ∀ j : Fin 16, j.val = s.sp.val → e ≠ .stack j) :
    (s.push a hd).observe e = s.observe e := by
  cases e
  case stack j =>
    have hne : j.val ≠ s.sp.val := fun he => hj j he rfl
    simp only [State.observe_stack, State.push_stack_get, if_neg hne]
  all_goals simp_all

theorem State.pop_observe_ne (h : e ≠ .sp) : s.pop.observe e = s.observe e := by
  cases e <;> simp_all

@[simp] theorem State.useRand_observe (e : Element) : s.useRand.observe e = s.observe e := by
  cases e <;> simp

theorem State.raise_observe_ne (c : FaultCode) (n : Nat) (hc : e ≠ .faultCode) (hp : e ≠ .faultPc) (hi : e ≠ .faultInfo) :
    (s.raise c n).observe e = s.observe e := by
  cases e <;> simp_all

/-- An element that an instruction does not name is none of those it does. -/
theorem ne_of_touches {i : Instr} {e' : Element} (h : touches s i e = false) (h' : touches s i e' = true) : e ≠ e' := by
  rintro rfl
  simp [h] at h'

/-- The fault entry of a code the instruction may raise leaves what the instruction does not name. -/
theorem State.raise_observe_of_touches {i : Instr} {c : FaultCode} (hm : mayRaise i c = true) (n : Nat)
    (h : touches s i e = false) : (s.raise c n).observe e = s.observe e := by
  obtain ⟨hc, hp, hi⟩ := touches_fault_of_mayRaise hm s
  exact State.raise_observe_ne c n (ne_of_touches h hc) (ne_of_touches h hp) (ne_of_touches h hi)

end

/-! ### What an instruction that completes leaves unchanged (R126) -/

section
variable {i : Instr} {s t : State}

theorem Completes.fault_eq (h : Completes i s t) : t.fault = s.fault := by
  cases i
  case ret | call => obtain ⟨_, rfl⟩ := h; rfl
  case skp | sknp | ldF => obtain ⟨_, -, rfl⟩ := h; rfl
  case ldVxK => rcases h with ⟨_, -, rfl⟩ | ⟨-, rfl⟩ <;> rfl
  case drw | ldB | ldMemVx | ldVxMem => obtain ⟨-, rfl⟩ := h; rfl
  case rnd => cases h; simp
  all_goals (cases h; rfl)

theorem Completes.observe_of_touches {e : Element} (h : Completes i s t) (he : touches s i e = false) :
    t.observe e = s.observe e := by
  have hpc : e ≠ .pc := ne_of_touches he rfl
  cases i
  case ret =>
    obtain ⟨_, rfl⟩ := h
    rw [State.setPc_observe_ne _ hpc, State.pop_observe_ne (ne_of_touches he rfl)]
  case call =>
    obtain ⟨_, rfl⟩ := h
    rw [State.setPc_observe_ne _ hpc,
      State.push_observe_ne _ _ (ne_of_touches he rfl) fun j hj => ne_of_touches he (by simpa [touches] using hj)]
  case jp | jpV0 => cases h; exact State.setPc_observe_ne _ hpc
  case seImm | sneImm | seReg | sneReg => cases h; exact State.skipIf_observe_ne _ hpc
  case skp | sknp => obtain ⟨_, -, rfl⟩ := h; exact State.skipIf_observe_ne _ hpc
  case ldImm | addImm | ldReg | orReg | andReg | xorReg | ldVxDt =>
    cases h
    rw [State.advance_observe_ne hpc, State.setReg_observe_ne _ (ne_of_touches he (by simp [touches, writesReg]))]
  case rnd =>
    cases h
    rw [State.advance_observe_ne hpc, State.setReg_observe_ne _ (ne_of_touches he (by simp [touches, writesReg])),
      State.useRand_observe]
  case ldVxK =>
    rcases h with ⟨_, -, rfl⟩ | ⟨-, rfl⟩
    · rw [State.advance_observe_ne hpc, State.setReg_observe_ne _ (ne_of_touches he (by simp [touches, writesReg]))]
    · rfl
  case addReg | sub | subn | shr | shl =>
    cases h
    rw [State.advance_observe_ne hpc, State.setFlagAndReg_observe_ne _ _
      (ne_of_touches he (by simp [touches, writesReg])) (ne_of_touches he (by simp [touches, writesReg]))]
  case ldI | addI => cases h; rw [State.advance_observe_ne hpc, State.setI_observe_ne _ (ne_of_touches he rfl)]
  case ldF =>
    obtain ⟨_, -, rfl⟩ := h
    rw [State.advance_observe_ne hpc, State.setI_observe_ne _ (ne_of_touches he rfl)]
  case ldDtVx => cases h; rw [State.advance_observe_ne hpc, State.setDt_observe_ne _ (ne_of_touches he rfl)]
  case ldStVx => cases h; rw [State.advance_observe_ne hpc, State.setSt_observe_ne _ (ne_of_touches he rfl)]
  case cls =>
    cases h
    rw [State.advance_observe_ne hpc, State.setFb_observe_ne _ fun _ _ => ne_of_touches he rfl]
  case drw =>
    obtain ⟨-, rfl⟩ := h
    rw [State.advance_observe_ne hpc, State.setReg_observe_ne _ (ne_of_touches he rfl),
      State.setFb_observe_ne _ fun _ _ => ne_of_touches he rfl]
  case ldB | ldMemVx =>
    obtain ⟨-, rfl⟩ := h
    rw [State.advance_observe_ne hpc, State.writeBytes_observe_ne fun b hlo hhi =>
      ne_of_touches he (by simpa [touches, storesBytes, bcdBytes, hlo] using hhi)]
  case ldVxMem =>
    obtain ⟨-, rfl⟩ := h
    rw [State.advance_observe_ne hpc, State.loadRegs_observe_ne _ fun r hr =>
      ne_of_touches he (by simpa [touches, writesReg] using hr)]

/-! ### The PC after an instruction that completes (R128) -/

theorem State.advance_pc_toNat (s : State) : s.advance.pc.toNat = (s.pc.toNat + 2) % 65536 := pc_add_two_toNat s.pc

theorem State.skipIf_pc_toNat (s : State) (c : Bool) (p : Prop) [Decidable p] (h : c = true ↔ p) :
    (s.skipIf c).pc.toNat = (s.pc.toNat + if p then 4 else 2) % 65536 := by
  rw [State.skipIf_pc]
  by_cases hp : p
  · simp only [h.mpr hp, hp, if_true, pc_add_four_toNat]
  · simp only [mt h.mp hp, hp, if_false, pc_add_two_toNat, Bool.false_eq_true]

/-- A skip whose table row names the condition under which it does not skip. -/
theorem State.skipIf_pc_toNat_of_not (s : State) (c : Bool) (p : Prop) [Decidable p] (h : c = true ↔ ¬ p) :
    (s.skipIf c).pc.toNat = (s.pc.toNat + if p then 2 else 4) % 65536 := by
  rw [State.skipIf_pc_toNat s c (¬ p) h, ite_not]

/-- The entry a pop reads, as an element of the state. -/
theorem State.top_toNat (s : State) (h : 0 < s.sp.val) :
    (s.top h).toNat = s.observe (.stack (Fin.ofNat 16 (s.sp.val - 1))) := by
  have hlt : s.sp.val - 1 < 16 := by omega
  simp [State.top, Nat.mod_eq_of_lt hlt]

theorem State.observe_key_eq_one_iff (s : State) (k : Fin 16) : s.observe (.key k) = 1 ↔ s.keyDown k = true := by
  simp

theorem key_eq_of_reg {x : Reg} {k : Fin 16} (h : (s.reg x).toNat = k.val) : Fin.ofNat 16 (s.V x) = k := by
  simp [h]

theorem Completes.pc_toNat (h : Completes i s t) : t.pc.toNat = nextPc s i := by
  cases i
  case ret =>
    obtain ⟨hs, rfl⟩ := h
    rw [nextPc, State.setPc_pc, pc_add_two_toNat, State.top_toNat]
  case jp => cases h; exact zextAddr_toNat _
  case call => obtain ⟨_, rfl⟩ := h; exact zextAddr_toNat _
  case jpV0 nnn =>
    cases h
    have hv := (s.reg 0).isLt
    have hn := nnn.isLt
    rw [State.setPc_pc, BitVec.toNat_add, zextByte_toNat, zextAddr_toNat, Nat.mod_eq_of_lt (by omega)]
    rfl
  case seImm => cases h; exact State.skipIf_pc_toNat _ _ _ (by simp [BitVec.toNat_inj])
  case seReg => cases h; exact State.skipIf_pc_toNat _ _ _ (by simp [BitVec.toNat_inj])
  case sneImm => cases h; exact State.skipIf_pc_toNat_of_not _ _ _ (by simp [BitVec.toNat_inj])
  case sneReg => cases h; exact State.skipIf_pc_toNat_of_not _ _ _ (by simp [BitVec.toNat_inj])
  case skp =>
    obtain ⟨k, hk, rfl⟩ := h
    rw [nextPc, key_eq_of_reg hk]
    exact State.skipIf_pc_toNat _ _ _ (s.observe_key_eq_one_iff k).symm
  case sknp =>
    obtain ⟨k, hk, rfl⟩ := h
    rw [nextPc, key_eq_of_reg hk]
    exact State.skipIf_pc_toNat_of_not _ _ _ (by simp)
  case ldVxK =>
    simp only [nextPc, State.observe_key_eq_one_iff]
    rcases h with ⟨k, hk, rfl⟩ | ⟨hk, rfl⟩
    · have hdown : s.keyDown k = true := ((s.firstKeyDown_eq_some_iff k).mp hk).1
      rw [if_pos ⟨k, hdown⟩, State.advance_pc_toNat, State.setReg_pc]
    · rw [if_neg (by simp [(State.firstKeyDown_eq_none_iff _).mp hk])]
  case ldF => obtain ⟨_, -, rfl⟩ := h; exact State.advance_pc_toNat _
  case drw | ldB | ldMemVx | ldVxMem => obtain ⟨-, rfl⟩ := h; exact State.advance_pc_toNat _
  case rnd => cases h; rw [State.advance_pc_toNat, State.setReg_pc, State.useRand_pc]; rfl
  all_goals (cases h; exact State.advance_pc_toNat _)

end

/-- Settles O35: what completes writes what its rule names, and a fault entry writes FAULT alone. -/
theorem tableRowIsCompleteEffect : Obligations.TableRowIsCompleteEffect := by
  intro i s t e h he
  rcases exec_cases h with hc | ⟨c, n, hm, rfl⟩
  · exact hc.observe_of_touches he
  · exact State.raise_observe_of_touches hm n he

/-- Settles O36: what completes leaves FAULT clear and PC as the table gives, and a fault entry keeps PC. -/
theorem pcUpdateIsTheTables : Obligations.PcUpdateIsTheTables := by
  intro i s t hs h
  rcases exec_cases h with hc | ⟨c, n, hm, rfl⟩
  · have ht : t.fault.code = .none := by rw [hc.fault_eq, hs]
    exact ⟨fun _ => hc.pc_toNat, fun hf => absurd ht hf⟩
  · exact ⟨fun ht => absurd ht (mayRaise_ne_none hm), fun _ => rfl⟩

/-! ### A STEP whose fetch or decode fails (R122, R124) -/

/-- The fault entry writes FAULT and nothing else (60_exceptions.md R282). -/
theorem State.raise_effect (s : State) (c : FaultCode) {n : Nat} (h : n < 2 ^ 17) :
    Effect s (s.raise c n) (lastWrite (faultWrites s c.number.toNat n)) := by
  refine ⟨fun e => ?_, rfl, rfl, rfl⟩
  cases e
  case faultInfo => simpa [faultWrites] using h
  all_goals simp [faultWrites]

theorem checkAddr_fetch_of_not_inProgram {p : Params} {a : Nat} (h : ¬ InProgram p a) :
    checkAddr p .fetch a = some (.fetchOutOfRange, a) := by
  have hne : region p a ≠ .prog := mt (region_eq_prog_iff p a).mp h
  cases hr : region p a <;> simp_all [checkAddr, refusedBy]

theorem State.fetchFailure_of_pc {s : State} (h : ¬ InProgram s.params s.pc.toNat) :
    s.fetchFailure = some (.fetchOutOfRange, s.pc.toNat) :=
  (checkRange_eq_some_iff _ _ _ _ _).mpr ⟨0, by decide, checkAddr_fetch_of_not_inProgram h, by simp⟩

theorem State.fetchFailure_of_pc_add_one {s : State} (h : InProgram s.params s.pc.toNat)
    (h' : ¬ InProgram s.params (s.pc.toNat + 1)) : s.fetchFailure = some (.fetchOutOfRange, s.pc.toNat + 1) := by
  refine (checkRange_eq_some_iff _ _ _ _ _).mpr ⟨1, by decide, checkAddr_fetch_of_not_inProgram h', fun j hj => ?_⟩
  obtain rfl : j = 0 := by omega
  exact (checkAddr_fetch_eq_none_iff _ _).mpr h

/-- The STEP of a failed fetch or decode is the fault entry, whole. -/
theorem step_effect_of_error {s : State} {c : FaultCode} {n : Nat} (hc : s.fault.code = .none)
    (hd : s.fetchDecode = .error (c, n)) (hn : n < 2 ^ 17) :
    ∃ t, step s = .next t ∧ Effect s t (lastWrite (faultWrites s c.number.toNat n)) :=
  ⟨_, step_of_error hc hd, s.raise_effect c hn⟩

/-- Settles O32, in the order of R132: the faulted core, the fetch checks of PC and of PC + 1, the decode, the rule. -/
theorem stepFetchesDecodesExecutes : Obligations.StepFetchesDecodesExecutes := by
  intro s
  refine ⟨step_of_faulted, fun hc => ⟨fun h0 => ?_, fun h0 h1 => ?_, fun h0 h1 w hw => ?_⟩⟩
  · have hd := (s.fetchDecode_eq_error_iff _).mpr (.inl (State.fetchFailure_of_pc h0))
    exact step_effect_of_error hc hd (by omega)
  · have hd := (s.fetchDecode_eq_error_iff _).mpr (.inl (State.fetchFailure_of_pc_add_one h0 h1))
    exact step_effect_of_error hc hd (by omega)
  · have hfetch : s.fetchFailure = none := s.fetchFailure_eq_none_iff.mpr ⟨h0, h1⟩
    obtain rfl : w = s.fetchWord := BitVec.eq_of_toNat_eq (hw.trans s.fetchWord_toNat.symm)
    constructor
    · intro hn
      have hd := (s.fetchDecode_eq_error_iff _).mpr (.inr ⟨hfetch, hn, rfl⟩)
      exact step_effect_of_error hc hd (by omega)
    · intro i hi
      exact step_of_ok hc ((s.fetchDecode_eq_ok_iff i).mpr ⟨hfetch, hi⟩)

end Sys2Proof.Machine
end

section
/-! PROOFS. The display (41_display.md): CLS, the drawing engine seen through the elements of the state, and which
transactions write a cell and which instructions read one (R140 to R142). -/

namespace Sys2Proof.Machine

/-! ### Admission of the sprite rows (20_memory.md R64) -/

theorem checkAddr_sprite_of_lt {p : Params} {a : Nat} (h : a < 0x1000) : checkAddr p .sprite a = none := by
  have hne : region p a ≠ .none := by
    simp only [region, Config.programStart, Config.memSize]
    split_ifs <;> simp
  cases hr : region p a <;> simp_all [checkAddr, refusedBy]

theorem checkAddr_sprite_of_ge {p : Params} (hp : p.wf) {a : Nat} (h : 0x1000 ≤ a) :
    checkAddr p .sprite a = some (.memoryOutOfRange, a) := by
  have hnone : region p a = .none := by
    obtain ⟨-, hend⟩ := hp
    simp only [region, Config.programStart, Config.memSize]
    rw [if_neg (by omega), if_neg (by omega), if_neg (by omega)]
  simp [checkAddr, refusedBy, hnone]

/-! ### The drawing engine, read through the elements of the state (R141) -/

section
variable (s : State) (x y : Reg) (n : Fin 16)

/-- The cells the engine toggles are those the statement's words name. -/
theorem spriteLights_iff_mem_spriteCells (cx : Fin 64) (cy : Fin 32) :
    spriteLights s x y n cx cy = true ↔
      (cx, cy) ∈ spriteCells (s.reg x).toNat (s.reg y).toNat n (fun r => s.readByte (s.i.toNat + r)) := by
  rw [spriteLights, decide_eq_true_eq, mem_spriteCells]
  simp only [State.observe_reg, State.observe_mem, BitVec.getLsbD, Nat.testBit_eq_decide_div_mod_eq, decide_eq_true_eq]
  constructor
  · rintro ⟨r, hr, c, hcx, hcy, hbit⟩
    exact ⟨r, hr, c, c.isLt, hcx, hcy, hbit⟩
  · rintro ⟨r, hr, c, hc, hcx, hcy, hbit⟩
    exact ⟨⟨r, hr.trans n.isLt⟩, hr, ⟨c, hc⟩, hcx, hcy, hbit⟩

theorem State.drawn_cell (cx : Fin 64) (cy : Fin 32) :
    (s.drawn x y n).1.cell cx cy = (s.fb.cell cx cy ^^ spriteLights s x y n cx cy) := by
  rw [State.drawn, drawSprite_cell _ _ _ _ (by omega)]
  congr 1
  rw [Bool.eq_iff_iff, decide_eq_true_eq, spriteLights_iff_mem_spriteCells]

theorem State.drawn_hit_iff :
    (s.drawn x y n).2 = true ↔ ∃ cx cy, spriteLights s x y n cx cy = true ∧ s.observe (.cell cx cy) = 1 := by
  rw [State.drawn, drawSprite_hit _ _ _ _ (by omega)]
  simp [spriteLights_iff_mem_spriteCells]

end

/-! ### What Dxyn does when every row is admitted, and when one is not -/

section
variable {s : State} {n : Fin 16} (x y : Reg)

theorem exec_drw_of_admitted (h : ∀ r : Fin 16, r < n → s.i.toNat + r.val < 0x1000) :
    exec (.drw x y n) s =
      .next ((s.setFb (s.drawn x y n).1).setReg VF (collisionFlag (s.drawn x y n).2)).advance := by
  have hnone : checkRange s.params .sprite s.i.toNat n = none :=
    (checkRange_eq_none_iff _ _ _ _).mpr fun j hj => checkAddr_sprite_of_lt (h ⟨j, hj.trans n.isLt⟩ hj)
  rw [exec, execDrw, hnone]
  rfl

theorem exec_drw_of_refused (hp : s.params.wf) {r : Fin 16} (hr : r < n) (hge : 0x1000 ≤ s.i.toNat + r.val)
    (hlow : ∀ q : Fin 16, q < r → s.i.toNat + q.val < 0x1000) :
    exec (.drw x y n) s = .next (s.raise .memoryOutOfRange (s.i.toNat + r.val)) := by
  have hsome : checkRange s.params .sprite s.i.toNat n = some (.memoryOutOfRange, s.i.toNat + r.val) :=
    (checkRange_eq_some_iff _ _ _ _ _).mpr ⟨r, hr, checkAddr_sprite_of_ge hp hge, fun j hj =>
      checkAddr_sprite_of_lt (hlow ⟨j, hj.trans r.isLt⟩ hj)⟩
  rw [exec, execDrw, hsome]
  rfl

end

/-! ### The framebuffer and the other instructions (R142) -/

theorem State.useRand_setFb (s : State) (f : FrameBuffer) : (s.setFb f).useRand = s.useRand.setFb f := by
  cases hd : s.draws with
  | nil => simp [State.useRand, State.setFb, hd]
  | cons r rest => simp [State.useRand, State.setFb, hd]

theorem guarded_setFb (o : Option Failure) (s e : State) (f : FrameBuffer) :
    (guarded o s e).setFb f = guarded o (s.setFb f) (e.setFb f) := by
  cases o <;> rfl

/-- An instruction that may neither write nor read a cell commutes with replacing the framebuffer. -/
theorem exec_setFb {i : Instr} {s t : State} (f : FrameBuffer) (hcls : i ≠ .cls) (hdrw : ∀ x y n, i ≠ .drw x y n)
    (h : exec i s = .next t) : exec i (s.setFb f) = .next (t.setFb f) := by
  cases i
  case cls => exact absurd rfl hcls
  case drw x y n => exact absurd rfl (hdrw x y n)
  case ret =>
    rcases execRet_cases h with ⟨hs, rfl⟩ | ⟨hs, rfl⟩
    · exact dif_pos hs
    · exact dif_neg (by simp [hs])
  case call =>
    rcases execCall_cases h with ⟨hs, rfl⟩ | ⟨hs, rfl⟩
    · exact dif_pos hs
    · exact dif_neg (by simp [hs])
  case skp x | sknp x | ldF x =>
    simp only [exec, execSkp, execSknp, execLdF, State.setFb_reg] at h ⊢
    cases hd : digit? (s.reg x) <;> rw [hd] at h <;> cases h <;> rfl
  case ldVxK x =>
    have hkeys : (s.setFb f).firstKeyDown = s.firstKeyDown := rfl
    rcases execLdVxK_cases h with ⟨k, hk, rfl⟩ | ⟨hk, rfl⟩
    · rw [exec, execLdVxK, hkeys, hk]; rfl
    · rw [exec, execLdVxK, hkeys, hk]
  case ldB | ldMemVx | ldVxMem => cases h; rw [guarded_setFb]; rfl
  case rnd => cases h; rw [exec, execRnd, State.useRand_setFb]; rfl
  all_goals (cases h; rfl)

/-- An instruction that changes a cell is CLS or DRW. -/
theorem cls_or_drw_of_cell_ne {i : Instr} {s t : State} {cx : Fin 64} {cy : Fin 32} (h : exec i s = .next t)
    (hne : t.observe (.cell cx cy) ≠ s.observe (.cell cx cy)) : i = .cls ∨ ∃ x y n, i = .drw x y n := by
  have htouch : touches s i (.cell cx cy) = true := by
    by_contra hf
    exact hne (tableRowIsCompleteEffect i s t _ h (by simpa using hf))
  cases i
  case cls => exact .inl rfl
  case drw x y n => exact .inr ⟨x, y, n, rfl⟩
  all_goals simp [touches] at htouch

/-- A STEP(RAND) that changes a cell fetched CLS or DRW. -/
theorem fetchDecode_of_stepRand_cell_ne {r : Byte} {s t : State} {cx : Fin 64} {cy : Fin 32}
    (h : stepRand r s = .next t) (hne : t.observe (.cell cx cy) ≠ s.observe (.cell cx cy)) :
    s.fetchDecode = .ok .cls ∨ ∃ x y n, s.fetchDecode = .ok (.drw x y n) := by
  obtain ⟨u, hu, rfl⟩ := stepRand_eq_next_iff.mp h
  rcases step_cases hu with ⟨-, rfl⟩ | ⟨-, f, -, rfl⟩ | ⟨-, i, hi, he⟩
  · exact absurd rfl hne
  · exact absurd rfl hne
  · have hfetch : s.fetchDecode = .ok i := (State.fetchDecode_congr rfl rfl rfl).trans hi
    rcases cls_or_drw_of_cell_ne he hne with rfl | ⟨x, y, n, rfl⟩
    · exact .inl hfetch
    · exact .inr ⟨x, y, n, hfetch⟩

/-- LOAD_ROM writes memory alone. -/
theorem loadRom_fb (bytes : List Byte) (s : State) : (loadRom bytes s).fb = s.fb := by
  unfold loadRom
  split <;> rfl

/-! ### The statements -/

/-- Settles O1: the blank framebuffer reads 0 at every cell, and PC moves on. -/
theorem clsClearsFramebuffer : Obligations.ClsClearsFramebuffer := by
  refine ⟨by decide, fun s => ⟨_, rfl, fun e => ?_, rfl, rfl, rfl⟩⟩
  cases e
  case cell cx cy => simp
  all_goals simp [pcPlus]

/-- Settles O2: the cells and the collision bit are those of the drawing engine, and a row at 0x1000 or above is the
fault entry of the lowest one. -/
theorem drwXorsSpriteOrFaults : Obligations.DrwXorsSpriteOrFaults := by
  intro x y n
  refine ⟨by simp [decodeWord, decodeFields], fun s hp => ⟨fun hadm => ?_, fun r hr hge hlow => ?_⟩⟩
  · refine ⟨_, exec_drw_of_admitted x y hadm, fun e => ?_, rfl, rfl, rfl⟩
    cases e
    case cell cx cy =>
      simp only [State.observe_cell, State.advance_fb, State.setReg_fb, State.setFb_fb, State.drawn_cell]
      cases s.fb.cell cx cy <;> cases spriteLights s x y n cx cy <;> rfl
    case reg z =>
      by_cases hz : z = VF
      · subst hz
        simp [pcPlus, collisionFlag, State.drawn_hit_iff]
      · simp [pcPlus, State.setReg_reg, hz, Ne.symm hz]
    all_goals simp [pcPlus]
  · exact ⟨_, exec_drw_of_refused x y hp hr hge hlow, s.raise_effect .memoryOutOfRange (by omega)⟩

/-- Settles O4: of the transactions only RESET, and a STEP of CLS or DRW, write the framebuffer, and every instruction but
those two commutes with replacing it; CLS leaves the blank one over any other. -/
theorem onlyClsDrwAndResetChangeCells : Obligations.OnlyClsDrwAndResetChangeCells := by
  refine ⟨fun tr s t cx cy h hne => ?_, fun s cx cy => ⟨_, rfl, ?_⟩, fun i s t f hdrw h => ?_⟩
  · cases tr
    case reset => exact .inl rfl
    case step r => exact .inr ⟨r, rfl, fetchDecode_of_stepRand_cell_ne h hne⟩
    case loadRom bytes => cases h; simp [loadRom_fb] at hne
    all_goals (cases h; exact absurd rfl hne)
  · exact congrArg Bool.toNat (FrameBuffer.blank_cell cx cy)
  · by_cases hcls : i = .cls
    · subst hcls; cases h; exact ⟨FrameBuffer.blank, rfl⟩
    · exact ⟨f, exec_setFb f hcls hdrw h⟩

end Sys2Proof.Machine
end

section
/-! PROOFS. Control flow (42_control_flow.md): the jumps, CALL at every depth, and the skips (R161 to R167). -/

namespace Sys2Proof.Machine

/-! ### The complete effect of a transfer of control -/

section
variable (s : State)

/-- A jump moves PC and nothing else. -/
theorem State.setPc_effect {a : Word} {target : Nat} (h : a.toNat = target) :
    Effect s (s.setPc a) (lastWrite [(.pc, target)]) := by
  refine ⟨fun e => ?_, rfl, rfl, rfl⟩
  by_cases he : e = .pc
  · subst he; simpa using h
  · simp [State.setPc_observe_ne a he, Ne.symm he]

/-- A push at depth `j`, then a jump: the entry, the depth and PC are written, and nothing else (R162, R170). -/
theorem State.push_setPc_effect (ret a : Word) (h : s.sp.val < 16) {j : Fin 16} (hj : s.sp.val = j.val) :
    Effect s ((s.push ret h).setPc a)
      (lastWrite [(.stack j, ret.toNat), (.sp, j.val + 1), (.pc, a.toNat)]) := by
  refine ⟨fun e => ?_, rfl, rfl, rfl⟩
  cases e
  case sp => simp [hj]
  case stack k =>
    rw [State.setPc_observe_ne a (by simp), State.observe_stack, State.push_stack_get]
    by_cases hk : k = j
    · subst hk; simp [hj]
    · have hne : k.val ≠ s.sp.val := by omega
      simp [hne, Ne.symm hk]
  all_goals simp

end

/-! ### CALL below depth 16 and at it (R162) -/

theorem exec_call_of_lt {s : State} (nnn : Addr) (h : s.sp.val < 16) :
    exec (.call nnn) s = .next ((s.push s.pc h).setPc (zextAddr nnn)) := dif_pos h

theorem exec_call_of_full {s : State} (nnn : Addr) (h : s.sp.val = 16) :
    exec (.call nnn) s = .next (s.raise .stackOverflow 0) := dif_neg (by omega)

/-! ### The conditions of the skips, as numbers (R163 to R166) -/

theorem byte_beq_iff_toNat_eq (a b : Byte) : (a == b) = true ↔ a.toNat = b.toNat := by
  rw [beq_iff_eq, BitVec.toNat_inj]

theorem byte_bne_iff_toNat_ne (a b : Byte) : (a != b) = true ↔ a.toNat ≠ b.toNat := by
  rw [bne_iff_ne, ne_eq, ne_eq, BitVec.toNat_inj]

/-! ### The statements -/

/-- Settles O6: both are jumps, and the sum of a byte and a 12-bit address fits PC. -/
theorem jumpsLoadPc : Obligations.JumpsLoadPc := by
  intro nnn
  refine ⟨by simp [decodeWord, decodeFields], by simp [decodeWord, decodeFields], fun s => ⟨?_, ?_⟩⟩
  · exact ⟨_, rfl, s.setPc_effect (zextAddr_toNat nnn)⟩
  · exact ⟨_, rfl, s.setPc_effect (Completes.pc_toNat (i := .jpV0 nnn) rfl)⟩

/-- Settles O7: below depth 16 a push and a jump, at depth 16 the fault entry of StackOverflow. -/
theorem callPushesOwnAddressOrFaults : Obligations.CallPushesOwnAddressOrFaults := by
  intro nnn
  refine ⟨by simp [decodeWord, decodeFields], fun s => ⟨fun j hj => ?_, fun hfull => ?_⟩⟩
  · have hlt : s.sp.val < 16 := hj.trans_lt j.isLt
    exact ⟨_, exec_call_of_lt nnn hlt, zextAddr_toNat nnn ▸ s.push_setPc_effect s.pc (zextAddr nnn) hlt hj⟩
  · exact ⟨_, exec_call_of_full nnn hfull, s.raise_effect .stackOverflow (by omega)⟩

/-- Settles O8: each is a skip on the comparison of the register with kk. -/
theorem immediateSkipsCompare : Obligations.ImmediateSkipsCompare := by
  intro x kk
  refine ⟨by simp [decodeWord, decodeFields], by simp [decodeWord, decodeFields], fun s => ⟨?_, ?_⟩⟩
  · exact ⟨_, rfl, s.skipIf_effect _ _ (byte_beq_iff_toNat_eq (s.reg x) kk)⟩
  · exact ⟨_, rfl, s.skipIf_effect _ _ (byte_bne_iff_toNat_ne (s.reg x) kk)⟩

/-- Settles O9: each is a skip on the comparison of the two registers. -/
theorem registerSkipsCompare : Obligations.RegisterSkipsCompare := by
  intro x y
  refine ⟨by simp [decodeWord, decodeFields], by simp [decodeWord, decodeFields], fun s => ⟨?_, ?_⟩⟩
  · exact ⟨_, rfl, s.skipIf_effect _ _ (byte_beq_iff_toNat_eq (s.reg x) (s.reg y))⟩
  · exact ⟨_, rfl, s.skipIf_effect _ _ (byte_bne_iff_toNat_ne (s.reg x) (s.reg y))⟩

end Sys2Proof.Machine
end

section
/-! PROOFS. Registers and the ALU (43_alu.md): the loads, the arithmetic and logic operations, the shifts, and a
STEP(RAND) of RND (R190 to R202). -/

namespace Sys2Proof.Machine

/-! ### What an ALU instruction that completes leaves, with its values as numbers -/

section
variable {i : Instr} {s : State} {x : Reg} {flag result : Byte} {f n : Nat}

/-- An instruction that writes one register and no flag (R190 to R195). -/
theorem exec_effect_of_setReg (h : exec i s = .next (s.setReg x result).advance) (hn : result.toNat = n) :
    ∃ t, exec i s = .next t ∧ Effect s t (lastWrite [(.reg x, n), pcPlus s 2]) :=
  ⟨_, h, hn ▸ s.setReg_advance_effect x result⟩

/-- An instruction that writes the flag, then one register (R196 to R200). -/
theorem exec_effect_of_setFlagAndReg (h : exec i s = .next (s.setFlagAndReg x flag result).advance)
    (hf : flag.toNat = f) (hn : result.toNat = n) :
    ∃ t, exec i s = .next t ∧ Effect s t (lastWrite [(.reg VF, f), (.reg x, n), pcPlus s 2]) :=
  ⟨_, h, hf ▸ hn ▸ s.setFlagAndReg_advance_effect x flag result⟩

end

/-! ### 8-bit results as numbers (R202) -/

section
variable (a b : Byte)

theorem byte_sub_toNat : (a - b).toNat = (a.toNat + 256 - b.toNat) % 256 := by
  have hb := b.isLt
  rw [BitVec.toNat_sub]
  congr 1
  omega

theorem byte_shiftRight_one_toNat : (a >>> 1).toNat = a.toNat / 2 := by
  rw [BitVec.toNat_ushiftRight, Nat.shiftRight_eq_div_pow]

theorem byte_shiftLeft_one_toNat : (a <<< 1).toNat = a.toNat * 2 % 256 := by
  rw [BitVec.toNat_shiftLeft, Nat.shiftLeft_eq]

end

/-! ### The draw of a STEP(RAND) (40_execution_cycle.md R131) -/

section
variable {s : State} {x : Reg} {kk r : Byte}

theorem exec_rnd_of_supplied {rest : List Byte} (h : s.draws = r :: rest) :
    exec (.rnd x kk) s = .next (({ s with draws := rest } : State).setReg x (r &&& kk)).advance := by
  obtain ⟨huse, hrand⟩ := s.useRand_of_supplied h
  rw [exec, execRnd, huse, hrand]

/-- A STEP(RAND) of Cxkk takes RAND itself, and leaves the model's own supply as it was. -/
theorem stepRand_of_rnd (hc : s.fault.code = .none) (hd : s.fetchDecode = .ok (.rnd x kk)) :
    stepRand r s = .next (s.setReg x (r &&& kk)).advance := by
  have hfetch : ({ s with draws := [r] } : State).fetchDecode = .ok (.rnd x kk) :=
    (State.fetchDecode_congr rfl rfl rfl).trans hd
  have hstep := (step_of_ok (s := { s with draws := [r] }) hc hfetch).trans (exec_rnd_of_supplied rfl)
  exact stepRand_eq_next_iff.mpr ⟨_, hstep, rfl⟩

end

/-! ### Decoding family 8 (30_encoding.md R94) -/

theorem decodeWord_family8 (x y : Reg) (n : BitVec 4) :
    decodeWord (wordXYN 0x8 (Reg.bits x) (Reg.bits y) n) = decode8 x y n := by
  simp [decodeWord, decodeFields]

/-! ### The statements -/

/-- Settles O12: the immediate, and the sum modulo 256 with no flag. -/
theorem immediateLoadAndAdd : Obligations.ImmediateLoadAndAdd := by
  intro x kk
  refine ⟨by simp [decodeWord, decodeFields], by simp [decodeWord, decodeFields], fun s => ⟨?_, ?_⟩⟩
  · exact exec_effect_of_setReg rfl rfl
  · exact exec_effect_of_setReg rfl (BitVec.toNat_add _ _)

/-- Settles O13: each writes one register, and a bitwise operation on bytes is the one on their numbers. -/
theorem moveAndLogicLeaveFlag : Obligations.MoveAndLogicLeaveFlag := by
  intro x y
  refine ⟨decodeWord_family8 x y 0, decodeWord_family8 x y 1, decodeWord_family8 x y 2, decodeWord_family8 x y 3,
    fun s => ⟨?_, ?_, ?_, ?_⟩⟩
  · exact exec_effect_of_setReg rfl rfl
  · exact exec_effect_of_setReg rfl (BitVec.toNat_or _ _)
  · exact exec_effect_of_setReg rfl (BitVec.toNat_and _ _)
  · exact exec_effect_of_setReg rfl (BitVec.toNat_xor _ _)

/-- Settles O14: the carry of the exact sum, then the sum modulo 256. -/
theorem addSetsCarryThenResult : Obligations.AddSetsCarryThenResult := by
  intro x y
  refine ⟨decodeWord_family8 x y 4, fun s => ?_⟩
  exact exec_effect_of_setFlagAndReg rfl (carryFlag_toNat _ _) (BitVec.toNat_add _ _)

/-- Settles O15: the two are one operation with the operands exchanged. -/
theorem subtractionsSetStrictFlag : Obligations.SubtractionsSetStrictFlag := by
  intro x y
  refine ⟨decodeWord_family8 x y 5, decodeWord_family8 x y 7, fun s => ⟨?_, ?_⟩⟩
  · exact exec_effect_of_setFlagAndReg rfl (noBorrowFlag_toNat _ _) (byte_sub_toNat _ _)
  · exact exec_effect_of_setFlagAndReg rfl (noBorrowFlag_toNat _ _) (byte_sub_toNat _ _)

/-- Settles O16: the bit shifted out, then half or twice the register. -/
theorem shiftsCaptureShiftedBit : Obligations.ShiftsCaptureShiftedBit := by
  intro x y
  refine ⟨decodeWord_family8 x y 6, decodeWord_family8 x y 0xE, fun s => ⟨?_, ?_⟩⟩
  · exact exec_effect_of_setFlagAndReg rfl (lowBitFlag_toNat _) (byte_shiftRight_one_toNat _)
  · exact exec_effect_of_setFlagAndReg rfl (highBitFlag_toNat _) (byte_shiftLeft_one_toNat _)

/-- Settles O17: the STEP takes RAND and leaves the supply of draws, so it writes one register and moves PC on. -/
theorem stepRndMasksRand : Obligations.StepRndMasksRand := by
  intro x kk
  refine ⟨by simp [decodeWord, decodeFields], fun rand s hc hd => ⟨_, stepRand_of_rnd hc hd, ?_⟩⟩
  exact BitVec.toNat_and rand kk ▸ s.setReg_advance_effect x (rand &&& kk)

end Sys2Proof.Machine
end

section
/-! PROOFS. The index register and memory (44_index_memory.md): the loads of I, the font address, and the three
instructions that store or load a block of bytes at I (R230 to R235). -/

namespace Sys2Proof.Machine

/-! ### Admission of a block (20_memory.md R64) -/

/-- The fault of a block access at an address outside the program region. -/
def blockFault (a : Nat) : FaultCode := if 0x1000 ≤ a then .memoryOutOfRange else .reservedAccess

theorem blockFault_number_toNat (a : Nat) : (blockFault a).number.toNat = if 0x1000 ≤ a then 5 else 6 := by
  unfold blockFault
  split <;> rfl

theorem checkAddr_block_of_not_inProgram {p : Params} (hp : p.wf) {a : Nat} (h : ¬ InProgram p a) :
    checkAddr p .block a = some (blockFault a, a) := by
  obtain ⟨hstart, hend⟩ := hp
  by_cases hlow : a < 0x200
  · simp [checkAddr, refusedBy, region, blockFault, hlow, show ¬ 0x1000 ≤ a by omega]
  · have hpast : ¬ a < p.programEnd := fun hlt => h ⟨by omega, hlt⟩
    by_cases hmem : a < 0x1000
    · simp [checkAddr, refusedBy, region, blockFault, hlow, hpast, hmem]
    · simp [checkAddr, refusedBy, region, blockFault, hlow, hpast, hmem, show 0x1000 ≤ a by omega]

/-! ### A block instruction whose addresses are all admitted, and one with an address that is not -/

section
variable {i : Instr} {s u : State} {n m : Nat}
variable (hexec : exec i s = .next (guarded (checkRange s.params .block s.i.toNat n) s u))
include hexec

theorem exec_of_admitted_block (h : ∀ k, k < n → InProgram s.params (s.i.toNat + k)) : exec i s = .next u := by
  rw [hexec, (checkRange_block_eq_none_iff _ _ _).mpr h, guarded_none]

/-- The fault entry of the lowest address outside the program region, and no other write (R130, R284). -/
theorem exec_effect_of_refused_block (hp : s.params.wf) {k : Fin m} (hk : k.val < n)
    (hinfo : s.i.toNat + k.val < 2 ^ 17) (hbad : ¬ InProgram s.params (s.i.toNat + k.val))
    (hlow : ∀ j : Fin m, j < k → InProgram s.params (s.i.toNat + j.val)) :
    ∃ t, exec i s = .next t ∧
      Effect s t (lastWrite (faultWrites s (if 0x1000 ≤ s.i.toNat + k.val then 5 else 6) (s.i.toNat + k.val))) := by
  have hsome : checkRange s.params .block s.i.toNat n = some (blockFault (s.i.toNat + k.val), s.i.toNat + k.val) :=
    (checkRange_eq_some_iff _ _ _ _ _).mpr ⟨k.val, hk, checkAddr_block_of_not_inProgram hp hbad, fun j hj =>
      (checkAddr_block_eq_none_iff _ _).mpr (hlow ⟨j, hj.trans k.isLt⟩ hj)⟩
  refine ⟨_, hexec, ?_⟩
  rw [hsome, guarded_some, ← blockFault_number_toNat]
  exact s.raise_effect _ hinfo

end

/-! ### The complete effect of writing I, and of storing a run of bytes -/

section
variable (s : State)

/-- I written, then PC moved on. -/
theorem State.setI_advance_effect (a : Word) :
    Effect s (s.setI a).advance (lastWrite [(.i, a.toNat), pcPlus s 2]) := by
  refine ⟨fun e => ?_, rfl, rfl, rfl⟩
  cases e <;> simp [pcPlus]

/-- Bytes stored from `a` on, then PC moved on: `written` is any way to say so. -/
theorem State.writeBytes_advance_effect (a : Nat) (bs : List Byte) {written : Element → Option Nat}
    (hmem : ∀ b, written (.mem b) = if a ≤ b then (bs.map BitVec.toNat)[b - a]? else none)
    (hrest : ∀ e, (∀ b, e ≠ .mem b) → written e = lastWrite [pcPlus s 2] e) :
    Effect s (s.writeBytes a bs).advance written := by
  refine ⟨fun e => ?_, rfl, rfl, rfl⟩
  cases e
  case mem b =>
    simp only [hmem, State.observe_mem, State.advance_readByte, State.writeBytes_readByte]
    by_cases hab : a ≤ b
    · by_cases hlt : b - a < bs.length
      · simp [hab, hlt]
      · simp [hab, hlt]
    · simp [hab]
  all_goals rw [hrest _ (by simp)]; simp [pcPlus]

end

/-! ### The bytes stored, as numbers (R233, R234) -/

theorem bcdBytes_map_toNat (b : Byte) :
    (bcdBytes b).map BitVec.toNat = [b.toNat / 100, b.toNat / 10 % 10, b.toNat % 10] := by
  have hb := b.isLt
  have hhundreds : b.toNat / 100 < 2 ^ 8 := by omega
  have htens : b.toNat / 10 % 10 < 2 ^ 8 := by omega
  have hones : b.toNat % 10 < 2 ^ 8 := by omega
  simp only [bcdBytes, List.map_cons, List.map_nil, BitVec.toNat_ofNat, Nat.mod_eq_of_lt hhundreds,
    Nat.mod_eq_of_lt htens, Nat.mod_eq_of_lt hones]

theorem State.regBlock_map_toNat_getElem? (s : State) (x : Reg) (j : Nat) :
    ((s.regBlock x).map BitVec.toNat)[j]? = if j ≤ x.val then some (s.V (Fin.ofNat 16 j)) else none := by
  by_cases hj : j ≤ x.val
  · have hlen : j < (s.regBlock x).length := by rw [State.regBlock_length]; omega
    have hreg : Fin.ofNat 16 j = ⟨j, by omega⟩ := Fin.ext (Nat.mod_eq_of_lt (by omega))
    rw [List.getElem?_map, List.getElem?_eq_getElem hlen, State.regBlock_getElem, if_pos hj, hreg]
    rfl
  · rw [if_neg hj, List.getElem?_eq_none (by rw [List.length_map, State.regBlock_length]; omega)]

/-! ### The statements -/

/-- Settles O22: an admitted block holds the three digits, and a refused one is the fault entry of its lowest
address outside the region. -/
theorem bcdStoresDigitsOrFaults : Obligations.BcdStoresDigitsOrFaults := by
  intro x
  refine ⟨by simp [decodeWord, decodeFields, decodeF], fun s hp => ⟨fun hadm => ?_, fun k hbad hlow => ?_⟩⟩
  · refine ⟨_, exec_of_admitted_block rfl fun k hk => hadm ⟨k, hk⟩, ?_⟩
    refine s.writeBytes_advance_effect _ _ (fun b => ?_) fun e he => ?_
    · rw [bcdBytes_map_toNat]
      by_cases hab : s.i.toNat ≤ b
      · obtain ⟨j, rfl⟩ := Nat.exists_eq_add_of_le hab
        match j with
        | 0 | 1 | 2 => simp [pcPlus]
        | j + 3 => simp [pcPlus]
      · have hhundreds : s.i.toNat ≠ b := by omega
        have htens : s.i.toNat + 1 ≠ b := by omega
        have hones : s.i.toNat + 2 ≠ b := by omega
        simp [pcPlus, hab, hhundreds, htens, hones]
    · simp [Ne.symm (he _)]
  · exact exec_effect_of_refused_block rfl hp k.isLt (by omega) hbad hlow

/-- Settles O23: an admitted block holds V0..Vx, and a refused one is the fault entry of its lowest
address outside the region. -/
theorem storeBlockOrFaults : Obligations.StoreBlockOrFaults := by
  intro x
  refine ⟨by simp [decodeWord, decodeFields, decodeF], fun s hp => ⟨fun hadm => ?_, fun k hk hbad hlow => ?_⟩⟩
  · refine ⟨_, exec_of_admitted_block rfl fun k hk => hadm ⟨k, by omega⟩ (Nat.le_of_lt_succ hk), ?_⟩
    refine s.writeBytes_advance_effect _ _ (fun b => ?_) fun e he => ?_
    · have hle : s.i.toNat ≤ b → (b - s.i.toNat ≤ x.val ↔ b ≤ s.i.toNat + x.val) := by omega
      rw [State.regBlock_map_toNat_getElem?]
      by_cases hab : s.i.toNat ≤ b <;> simp [hab, hle]
    · cases e
      case mem b => exact absurd rfl (he b)
      all_goals rfl
  · exact exec_effect_of_refused_block rfl hp (Nat.lt_succ_of_le hk) (by omega) hbad hlow

/-- Settles O24: an admitted block is what V0..Vx hold after, and a refused one is the fault entry of its lowest
address outside the region. -/
theorem loadBlockOrFaults : Obligations.LoadBlockOrFaults := by
  intro x
  refine ⟨by simp [decodeWord, decodeFields, decodeF], fun s hp => ⟨fun hadm => ?_, fun k hk hbad hlow => ?_⟩⟩
  · refine ⟨_, exec_of_admitted_block rfl fun k hk => hadm ⟨k, by omega⟩ (Nat.le_of_lt_succ hk), fun e => ?_,
      rfl, rfl, rfl⟩
    cases e
    case reg r =>
      simp only [State.observe_reg, State.advance_reg, State.loadRegs_reg]
      by_cases hr : r ≤ x <;> simp [hr]
    all_goals simp [pcPlus]
  · exact exec_effect_of_refused_block rfl hp (Nat.lt_succ_of_le hk) (by omega) hbad hlow

/-- Settles O20: each writes I, and the sum is taken in 16 bits. -/
theorem indexLoadAndAdd : Obligations.IndexLoadAndAdd := by
  refine ⟨fun nnn => by simp [decodeWord, decodeFields], fun x => by simp [decodeWord, decodeFields, decodeF],
    fun s => ⟨fun nnn => ⟨_, rfl, ?_⟩, fun x => ⟨_, rfl, ?_⟩⟩⟩
  · simpa using s.setI_advance_effect (zextAddr nnn)
  · simpa [BitVec.toNat_add] using s.setI_advance_effect (s.i + zextByte (s.reg x))

/-- Settles O21: a digit points I at its sprite, and a larger number is the fault entry of FontDigitOutOfRange. -/
theorem fontAddressOrFault : Obligations.FontAddressOrFault := by
  intro x
  refine ⟨by simp [decodeWord, decodeFields, decodeF], fun s => ⟨fun hle => ?_, fun hgt => ?_⟩⟩
  · have hlt : s.V x < 16 := by omega
    have hexec : exec (.ldF x) s = .next (s.setI (fontAddr ⟨s.V x, hlt⟩)).advance := by
      rw [exec, execLdF, (digit?_eq_some_iff _ ⟨s.V x, hlt⟩).mpr rfl]
    exact ⟨_, hexec, fontAddr_toNat ⟨s.V x, hlt⟩ ▸ s.setI_advance_effect _⟩
  · have hexec : exec (.ldF x) s = .next (s.raise .fontDigitOutOfRange (s.V x)) := by
      rw [exec, execLdF, (digit?_eq_none_iff _).mpr hgt]
      rfl
    exact ⟨_, hexec, s.raise_effect .fontDigitOutOfRange (by have := (s.reg x).isLt; simp; omega)⟩

end Sys2Proof.Machine
end

section
/-! PROOFS. The keypad and the timers (45_keypad_timers.md): the skips on a key, the wait for a key, and the moves
between a register and DT or ST (R260 to R265). -/

namespace Sys2Proof.Machine

/-! ### Decoding families E and F (30_encoding.md R94) -/

theorem decodeWord_familyE (x : Reg) (kk : Byte) : decodeWord (wordXKK 0xE (Reg.bits x) kk) = decodeE x kk := by
  simp [decodeWord, decodeFields]

theorem decodeWord_familyF (x : Reg) (kk : Byte) : decodeWord (wordXKK 0xF (Reg.bits x) kk) = decodeF x kk := by
  simp [decodeWord, decodeFields]

/-! ### The skips on a key number, and on a number above 0xF (R260, R261) -/

section
variable {s : State} {x : Reg} {k : Fin 16}

theorem exec_skp_of_key (h : (s.reg x).toNat = k.val) : exec (.skp x) s = .next (s.skipIf (s.keyDown k)) := by
  rw [exec, execSkp, (digit?_eq_some_iff _ k).mpr h]

theorem exec_sknp_of_key (h : (s.reg x).toNat = k.val) : exec (.sknp x) s = .next (s.skipIf (!s.keyDown k)) := by
  rw [exec, execSknp, (digit?_eq_some_iff _ k).mpr h]

theorem exec_skp_of_gt (h : 0xF < (s.reg x).toNat) :
    exec (.skp x) s = .next (s.raise .keyIndexOutOfRange (s.reg x).toNat) := by
  rw [exec, execSkp, (digit?_eq_none_iff _).mpr h]

theorem exec_sknp_of_gt (h : 0xF < (s.reg x).toNat) :
    exec (.sknp x) s = .next (s.raise .keyIndexOutOfRange (s.reg x).toNat) := by
  rw [exec, execSknp, (digit?_eq_none_iff _).mpr h]

/-! ### The wait for a key (R263) -/

theorem exec_ldVxK_of_firstKeyDown (h : s.firstKeyDown = some k) :
    exec (.ldVxK x) s = .next (s.setReg x (digitByte k)).advance := by
  rw [exec, execLdVxK, h]

theorem exec_ldVxK_of_no_key (h : s.firstKeyDown = none) : exec (.ldVxK x) s = .next s := by
  rw [exec, execLdVxK, h]

end

/-! ### A key, and the complete effect of writing a timer, as numbers -/

section
variable (s : State)

theorem State.observe_key_eq_zero_iff (k : Fin 16) : s.observe (.key k) = 0 ↔ s.keyDown k = false := by
  simp

theorem State.not_keyDown_iff_observe (k : Fin 16) : (!s.keyDown k) = true ↔ s.observe (.key k) = 0 := by
  rw [Bool.not_eq_true', State.observe_key_eq_zero_iff]

/-- DT written, then PC moved on (R264). -/
theorem State.setDt_advance_effect (b : Byte) :
    Effect s (s.setDt b).advance (lastWrite [(.dt, b.toNat), pcPlus s 2]) := by
  refine ⟨fun e => ?_, rfl, rfl, rfl⟩
  cases e <;> simp [pcPlus]

/-- ST written, then PC moved on (R265). -/
theorem State.setSt_advance_effect (b : Byte) :
    Effect s (s.setSt b).advance (lastWrite [(.st, b.toNat), pcPlus s 2]) := by
  refine ⟨fun e => ?_, rfl, rfl, rfl⟩
  cases e <;> simp [pcPlus]

/-- A register is a byte, so the fault entry of a bad key number keeps it whole (60_exceptions.md R281). -/
theorem State.raise_keyIndex_effect (x : Reg) :
    Effect s (s.raise .keyIndexOutOfRange (s.reg x).toNat) (lastWrite (faultWrites s 7 (s.V x))) := by
  have hbyte := (s.reg x).isLt
  exact s.raise_effect .keyIndexOutOfRange (by omega)

end

/-! ### The statements -/

/-- Settles O29: the smallest key down is the model's first key down, and there is none exactly while no key is down. -/
theorem waitKeyStoresSmallestKey : Obligations.WaitKeyStoresSmallestKey := by
  intro x
  refine ⟨decodeWord_familyF x 0x0A, fun s => ⟨fun k hdown hlow => ?_, fun hnone => ?_⟩⟩
  · have hfirst : s.firstKeyDown = some k := (s.firstKeyDown_eq_some_iff k).mpr
      ⟨(s.observe_key_eq_one_iff k).mp hdown, fun j hj => (s.observe_key_eq_zero_iff j).mp (hlow j hj)⟩
    exact ⟨_, exec_ldVxK_of_firstKeyDown hfirst, digitByte_toNat k ▸ s.setReg_advance_effect x (digitByte k)⟩
  · exact exec_ldVxK_of_no_key
      (s.firstKeyDown_eq_none_iff.mpr fun k => (s.observe_key_eq_zero_iff k).mp (hnone k))

/-- Settles O27: a key number is a skip on that key, and a larger number the fault entry of KeyIndexOutOfRange. -/
theorem keySkipsOrFault : Obligations.KeySkipsOrFault := by
  intro x
  refine ⟨decodeWord_familyE x 0x9E, decodeWord_familyE x 0xA1,
    fun s => ⟨fun k hk => ⟨?_, ?_⟩, fun hgt => ⟨?_, ?_⟩⟩⟩
  · exact ⟨_, exec_skp_of_key hk, s.skipIf_effect _ _ (s.observe_key_eq_one_iff k).symm⟩
  · exact ⟨_, exec_sknp_of_key hk, s.skipIf_effect _ _ (s.not_keyDown_iff_observe k)⟩
  · exact ⟨_, exec_skp_of_gt hgt, s.raise_keyIndex_effect x⟩
  · exact ⟨_, exec_sknp_of_gt hgt, s.raise_keyIndex_effect x⟩

/-- Settles O28: each copies one byte and moves PC on. -/
theorem timerMoves : Obligations.TimerMoves := by
  intro x
  refine ⟨decodeWord_familyF x 0x07, decodeWord_familyF x 0x15, decodeWord_familyF x 0x18,
    fun s => ⟨?_, ?_, ?_⟩⟩
  · exact exec_effect_of_setReg rfl rfl
  · exact ⟨_, rfl, s.setDt_advance_effect (s.reg x)⟩
  · exact ⟨_, rfl, s.setSt_advance_effect (s.reg x)⟩

end Sys2Proof.Machine
end

section
/-! PROOFS. Faults and the host interface (60_exceptions.md): the fault entry and the faulted core (R282, R283), the
keypad latch and the timers (R293 to R299), and the table of the transactions (R297, R300, R301). -/

namespace Sys2Proof.Machine

/-! ### The fault entry (R282) -/

/-- FAULT.info holds 17 bits, so a fault entry is the one of its info modulo 2^17. -/
theorem State.raise_mod (s : State) (c : FaultCode) (n : Nat) : s.raise c (n % 2 ^ 17) = s.raise c n := by
  have hinfo : BitVec.ofNat 17 (n % 2 ^ 17) = BitVec.ofNat 17 n := BitVec.eq_of_toNat_eq (by simp)
  rw [State.raise, State.raise, hinfo]

/-- An instruction that leaves the core faulted made the fault entry and no other write (40_execution_cycle.md R130). -/
theorem exec_eq_raise {i : Instr} {s t : State} (hc : s.fault.code = .none) (h : exec i s = .next t)
    (ht : t.fault.code ≠ .none) : ∃ n, t = s.raise t.fault.code n := by
  rcases exec_cases h with hdone | ⟨c, n, -, rfl⟩
  · exact absurd (hdone.fault_eq ▸ hc) ht
  · exact ⟨n, rfl⟩

/-- So did a STEP, in its fetch, its decode or its instruction. -/
theorem step_eq_raise {s t : State} (hc : s.fault.code = .none) (h : step s = .next t) (ht : t.fault.code ≠ .none) :
    ∃ n, t = s.raise t.fault.code n := by
  rcases step_cases h with ⟨hf, -⟩ | ⟨-, f, -, rfl⟩ | ⟨-, i, -, he⟩
  · exact absurd hc hf
  · exact ⟨f.2, rfl⟩
  · exact exec_eq_raise hc he ht

/-- The info of a failed fetch or decode is an address at most one above PC, or a word, so it fits FAULT.info (R281). -/
theorem State.fetchDecode_info_lt {s : State} {f : Failure} (h : s.fetchDecode = .error f) : f.2 < 2 ^ 17 := by
  rcases (s.fetchDecode_eq_error_iff f).mp h with hf | ⟨-, -, rfl⟩
  · obtain ⟨q, hq, hcheck, -⟩ := (checkRange_eq_some_iff _ _ _ _ _).mp hf
    obtain ⟨c, -, rfl⟩ := Option.map_eq_some_iff.mp hcheck
    have hpc := s.pc.isLt
    show s.pc.toNat + q < 2 ^ 17
    omega
  · have hword := s.fetchWord.isLt
    show s.fetchWord.toNat < 2 ^ 17
    omega

/-- Settles O43: a STEP from a core that is not faulted to one that is made one fault entry, in the fetch, in the decode
or in the instruction. -/
theorem faultsArePrecise : Obligations.FaultsArePrecise := by
  refine ⟨fun s code info hinfo => s.raise_effect code hinfo, fun s t hc h ht => ?_⟩
  obtain ⟨n, hn⟩ := step_eq_raise hc h ht
  exact ⟨n % 2 ^ 17, Nat.mod_lt _ (by decide), hn.trans (s.raise_mod _ n).symm⟩

/-! ### A STEP(RAND), by what it fetches (R297) -/

section
variable {i : Instr} {s t : State} {r : Byte}

/-- Every instruction has a next state. -/
theorem exec_total (i : Instr) (s : State) : ∃ t, exec i s = .next t := by
  cases i
  case ret | call => simp only [exec, execRet, execCall]; split <;> exact ⟨_, rfl⟩
  case skp x | sknp x | ldF x => simp only [exec, execSkp, execSknp, execLdF]; split <;> exact ⟨_, rfl⟩
  case ldVxK => simp only [exec, execLdVxK]; split <;> exact ⟨_, rfl⟩
  all_goals exact ⟨_, rfl⟩

theorem step_total (s : State) : ∃ t, step s = .next t := by
  by_cases hc : s.fault.code = .none
  · cases hd : s.fetchDecode with
    | error f => exact ⟨_, step_of_error hc hd⟩
    | ok i => exact step_of_ok hc hd ▸ exec_total i s
  · exact ⟨_, step_of_faulted hc⟩

theorem stepRand_total (r : Byte) (s : State) : ∃ t, stepRand r s = .next t := by
  obtain ⟨u, hu⟩ := step_total { s with draws := [r] }
  exact ⟨_, stepRand_eq_next_iff.mpr ⟨u, hu, rfl⟩⟩

/-- The supply of draws replaced. -/
def State.withDraws (s : State) (d : List Byte) : State := { s with draws := d }

theorem guarded_withDraws (o : Option Failure) (s e : State) (d : List Byte) :
    (guarded o s e).withDraws d = guarded o (s.withDraws d) (e.withDraws d) := by
  cases o <;> rfl

/-- An instruction other than Cxkk neither reads nor changes the supply of draws (40_execution_cycle.md R131). -/
theorem exec_withDraws (d : List Byte) (hrnd : ∀ x kk, i ≠ .rnd x kk) (h : exec i s = .next t) :
    exec i (s.withDraws d) = .next (t.withDraws d) := by
  cases i
  case rnd x kk => exact absurd rfl (hrnd x kk)
  case ret =>
    rcases execRet_cases h with ⟨hs, rfl⟩ | ⟨hs, rfl⟩
    · exact dif_pos hs
    · exact dif_neg (by simp [State.withDraws, hs])
  case call =>
    rcases execCall_cases h with ⟨hs, rfl⟩ | ⟨hs, rfl⟩
    · exact dif_pos hs
    · exact dif_neg (by simp [State.withDraws, hs])
  case skp x | sknp x | ldF x =>
    have hreg : (s.withDraws d).reg x = s.reg x := rfl
    simp only [exec, execSkp, execSknp, execLdF, hreg] at h ⊢
    cases hd : digit? (s.reg x) <;> rw [hd] at h <;> cases h <;> rfl
  case ldVxK x =>
    have hkeys : (s.withDraws d).firstKeyDown = s.firstKeyDown := rfl
    rcases execLdVxK_cases h with ⟨k, hk, rfl⟩ | ⟨hk, rfl⟩
    · rw [exec, execLdVxK, hkeys, hk]; rfl
    · rw [exec, execLdVxK, hkeys, hk]
  case drw | ldB | ldMemVx | ldVxMem => cases h; rw [guarded_withDraws]; rfl
  all_goals (cases h; rfl)

theorem stepRand_of_faulted (hf : s.fault.code ≠ .none) : stepRand r s = .next s :=
  stepRand_eq_next_iff.mpr ⟨_, step_of_faulted (s := { s with draws := [r] }) hf, rfl⟩

theorem stepRand_of_error {f : Failure} (hc : s.fault.code = .none) (hd : s.fetchDecode = .error f) :
    stepRand r s = .next (s.raise f.1 f.2) :=
  stepRand_eq_next_iff.mpr ⟨_, step_of_error (s := { s with draws := [r] }) hc
    ((State.fetchDecode_congr rfl rfl rfl).trans hd), rfl⟩

/-- A STEP(RAND) of any instruction but Cxkk is the instruction, whatever RAND is. -/
theorem stepRand_of_ok (hc : s.fault.code = .none) (hd : s.fetchDecode = .ok i) (hrnd : ∀ x kk, i ≠ .rnd x kk) :
    stepRand r s = exec i s := by
  obtain ⟨t, ht⟩ := exec_total i s
  have hfetch : (s.withDraws [r]).fetchDecode = .ok i := (State.fetchDecode_congr rfl rfl rfl).trans hd
  have hstep : step (s.withDraws [r]) = .next (t.withDraws [r]) :=
    (step_of_ok (s := s.withDraws [r]) hc hfetch).trans (exec_withDraws [r] hrnd ht)
  have hdraws : exec i s = .next (t.withDraws s.draws) := exec_withDraws s.draws hrnd ht
  rw [hdraws]
  exact stepRand_eq_next_iff.mpr ⟨_, hstep, rfl⟩

end

/-! ### What the transactions other than STEP leave -/

/-- TICK takes a timer that is not 0 down by 1 (R293). -/
theorem countDown_toNat (b : Byte) : (countDown b).toNat = b.toNat - 1 := by
  unfold countDown
  split <;> bv_omega

section
variable (s : State) (bytes : List Byte)

/-- LOAD_ROM writes memory alone (70_reset_and_hazards.md R333). -/
theorem loadRom_eq : loadRom bytes s = { s with mem := (loadRom bytes s).mem } := by
  unfold loadRom
  split <;> rfl

/-- LOAD_ROM does not read FAULT. -/
theorem loadRom_withFault (f : FaultRegister) :
    loadRom bytes { s with fault := f } = { loadRom bytes s with fault := f } := by
  have hsize : romTooLarge { s with fault := f } bytes = romTooLarge s bytes := rfl
  unfold loadRom
  rw [hsize]
  split <;> rfl

/-- A ROM that fits is stored byte by byte from 0x200 on, and nothing else is written: `written` is any way to say so. -/
theorem loadRom_effect (hfit : bytes.length ≤ s.params.programEnd - 0x200) {written : Element → Option Nat}
    (hmem : ∀ a, written (.mem a) = if 0x200 ≤ a then (bytes[a - 0x200]?).map BitVec.toNat else none)
    (hrest : ∀ e, (∀ a, e ≠ .mem a) → written e = none) : Effect s (loadRom bytes s) written := by
  have hload : loadRom bytes s = s.writeBytes 0x200 bytes := if_neg (by simpa [romTooLarge] using hfit)
  rw [hload]
  refine ⟨fun e => ?_, rfl, rfl, rfl⟩
  cases e
  case mem a =>
    simp only [hmem, State.observe_mem, State.writeBytes_readByte]
    by_cases hlow : 0x200 ≤ a
    · by_cases hlt : a - 0x200 < bytes.length <;> simp [hlow, hlt]
    · simp [hlow]
  all_goals rw [hrest _ (by simp)]; rfl

/-- The font at 0x000 to 0x04F, and 0 at every other address (20_memory.md R62). -/
theorem resetCore_readByte_toNat (a : Nat) :
    ((resetCore s).readByte a).toNat = if h : a < 80 then (s.params.fontData[a]).toNat else 0 := by
  show (Memory.unlisted s.params.fontData a).toNat = _
  by_cases ha : a < 80 <;> simp [Memory.unlisted, Config.fontBase, Config.fontSize, ha]

end

/-! ### A faulted core until RESET (R283) -/

/-- On a faulted core no transaction but RESET writes anything but memory, the keys and the timers. -/
theorem transact_of_faulted {tr : Transaction} {s t : State} (hf : s.fault.code ≠ .none) (hreset : tr ≠ .reset)
    (h : transact tr s = .next t) : t = { s with mem := t.mem, keys := t.keys, dt := t.dt, st := t.st } := by
  cases tr
  case reset => exact absurd rfl hreset
  case step r =>
    have hsame : t = s := Host.Outcome.next.inj (h.symm.trans (stepRand_of_faulted hf))
    rw [hsame]
  case loadRom bytes => cases h; rw [loadRom_eq]
  all_goals (cases h; rfl)

/-- A transaction but RESET and STEP neither reads nor writes FAULT. -/
theorem transact_of_withFault {tr : Transaction} {s t : State} {f : FaultRegister} (hreset : tr ≠ .reset)
    (hstep : ∀ r, tr ≠ .step r) (h : transact tr { s with fault := f } = .next t) :
    transact tr s = .next { t with fault := s.fault } := by
  cases tr
  case reset => exact absurd rfl hreset
  case step r => exact absurd rfl (hstep r)
  case loadRom bytes =>
    cases h
    rw [loadRom_withFault, transact, loadRom_eq]
  all_goals (cases h; rfl)

/-- Settles O45: the frame is kept by every transaction of the schedule, since the core stays faulted along it. -/
theorem faultHoldsUntilReset : Obligations.FaultHoldsUntilReset := by
  intro s hf
  refine ⟨step_of_faulted hf, fun sched t hsched h => ?_, fun tr t hreset hstep h => transact_of_withFault hreset hstep h,
    _, rfl, rfl⟩
  refine runSchedule_induction
    (P := fun u => u = { s with mem := u.mem, keys := u.keys, dt := u.dt, st := u.st }) ?_ rfl h
  intro tr htr u u' hu hu'
  have hfault : u.fault = s.fault := by rw [hu]
  have hframe := transact_of_faulted (hfault ▸ hf) (fun he => hsched (he ▸ htr)) hu'
  exact hframe.trans (by rw [hu])

/-! ### The keypad latch (R299) -/

theorem step_observe_key {s t : State} (k : Fin 16) (h : step s = .next t) :
    t.observe (.key k) = s.observe (.key k) := by
  rcases step_cases h with ⟨-, rfl⟩ | ⟨-, f, -, rfl⟩ | ⟨-, i, -, he⟩
  · rfl
  · rfl
  · exact tableRowIsCompleteEffect i s t (.key k) he rfl

/-- Only SET_KEYS and RESET write the latch. -/
theorem transact_observe_key {tr : Transaction} {s t : State} (k : Fin 16) (hkeys : ∀ keys, tr ≠ .setKeys keys)
    (hreset : tr ≠ .reset) (h : transact tr s = .next t) : t.observe (.key k) = s.observe (.key k) := by
  cases tr
  case reset => exact absurd rfl hreset
  case setKeys keys => exact absurd rfl (hkeys keys)
  case step r =>
    obtain ⟨u, hu, rfl⟩ := stepRand_eq_next_iff.mp h
    exact step_observe_key (s := { s with draws := [r] }) (t := u) k hu
  case loadRom bytes => cases h; rw [loadRom_eq]; rfl
  all_goals (cases h; rfl)

/-- Settles O53: SET_KEYS replaces the keys, and no transaction of such a schedule writes one. -/
theorem setKeysAloneSetsLatch : Obligations.SetKeysAloneSetsLatch := by
  refine ⟨fun keys s => ⟨_, rfl, fun e => ?_, rfl, rfl, rfl⟩, fun sched s t hkeys hreset h k => ?_⟩
  · cases e <;> rfl
  · refine runSchedule_induction (P := fun u => u.observe (.key k) = s.observe (.key k)) ?_ rfl h
    intro tr htr u u' hu hu'
    exact (transact_observe_key k (fun keys he => hkeys keys (he ▸ htr)) (fun he => hreset (he ▸ htr)) hu').trans hu

/-! ### The timers (R293, R296) -/

/-- Settles O54, by induction on the number of TICKs: the first takes 1 off each timer, the others the rest. -/
theorem ticksCountDownToZero : Obligations.TicksCountDownToZero := by
  intro n
  induction n with
  | zero =>
    refine fun s => ⟨s, rfl, fun e => ?_, rfl, rfl, rfl⟩
    cases e <;> rfl
  | succ n ih =>
    intro s
    obtain ⟨t, ht, hwrites, hsupply⟩ := ih (tick s)
    refine ⟨t, ht, fun e => ?_, hsupply⟩
    rw [hwrites e]
    cases e
    case dt | st =>
      simp only [lastWrite_cons, lastWrite_nil, State.observe_dt, State.observe_st, tick, countDown_toNat]
      simp [Nat.sub_sub, Nat.add_comm]
    all_goals rfl

/-! ### The table of the transactions (R297, R300, R301) -/

/-- Settles O55, row by row: the four reads, RESET, LOAD_ROM, SET_KEYS, TICK and STEP. -/
theorem readsAnswerAndChangeNothing : Obligations.ReadsAnswerAndChangeNothing := by
  intro s
  refine ⟨⟨rfl, rfl⟩, ⟨rfl, rfl⟩, ⟨rfl, _, _, _, rfl, rfl, rfl, rfl⟩, ⟨rfl, _, rfl, ?_⟩, ⟨rfl, _, rfl, fun e _ => ?_⟩,
    fun bytes => ⟨fun hfit => ?_, fun hlong => ?_⟩, fun keys => ⟨rfl, setKeysAloneSetsLatch.1 keys s⟩,
    ⟨rfl, ticksCountDownToZero 1 s⟩, fun rand => ⟨rfl, ?_⟩⟩
  · refine ⟨fun _ => rfl, rfl, rfl, rfl, fun _ => rfl, rfl, rfl, fun _ => rfl, fun a => ?_⟩
    simp [readState]
  · cases e
    case mem a _ => exact resetCore_readByte_toNat s a
    all_goals simp [resetCore, State.reset, State.reg, State.keyDown, FrameBuffer.cell, FaultCode.number]
  · have hok : romTooLarge s bytes = false := by simpa [romTooLarge] using hfit
    refine ⟨by simp [respond, hok], _, rfl, loadRom_effect s bytes hfit (fun _ => rfl) fun e he => ?_⟩
    cases e
    case mem a => exact absurd rfl (he a)
    all_goals rfl
  · have hlarge : romTooLarge s bytes = true := by simpa [romTooLarge] using hlong
    simp [respond, transact, loadRom, hlarge]
  · obtain ⟨t, ht⟩ := stepRand_total rand s
    refine ⟨t, ht, fun hf => ?_, fun f hc hd => ?_, fun i hc hd hrnd => ?_, fun x kk hc hd => ?_⟩
    · exact Host.Outcome.next.inj (ht.symm.trans (stepRand_of_faulted hf))
    · obtain rfl := Host.Outcome.next.inj (ht.symm.trans (stepRand_of_error hc hd))
      exact s.raise_effect f.1 (State.fetchDecode_info_lt hd)
    · exact (stepRand_of_ok hc hd hrnd).symm.trans ht
    · obtain rfl := Host.Outcome.next.inj (ht.symm.trans (stepRand_of_rnd hc hd))
      exact BitVec.toNat_and rand kk ▸ s.setReg_advance_effect x (rand &&& kk)

end Sys2Proof.Machine
end

section
/-! PROOFS. Reset and hazards (70_reset_and_hazards.md): LOAD_ROM, whole or not at all (R333). -/

namespace Sys2Proof.Machine

/-- Settles O52: it is the LOAD_ROM row of the table of the transactions, whose first half is `loadRom_effect`. -/
theorem loadRomCopiesOrRejects : Obligations.LoadRomCopiesOrRejects := by
  intro bytes s
  obtain ⟨_, _, _, _, _, hloadRom, _⟩ := readsAnswerAndChangeNothing s
  exact hloadRom bytes

end Sys2Proof.Machine
end

section
/-! PROOFS. The encoding (30_encoding.md): the decoder and the encoder are inverse to each other, and the decoder against
the rows of the opcode table and the families of the illegal words (R91 to R98). -/

namespace Sys2Proof.Machine

/-- Settles O38, format by format: the fields of the encoding are the operands, and select the instruction. -/
theorem decodeInvertsEncode : Obligations.DecodeInvertsEncode := by
  intro i
  cases i
  case cls | ret => decide
  case jp | call | ldI | jpV0 => simp [encode, decodeWord, decodeFields]
  case seImm | sneImm | ldImm | addImm | rnd => simp [encode, decodeWord, decodeFields]
  case seReg | sneReg | drw => simp [encode, decodeWord, decodeFields]
  case ldReg | orReg | andReg | xorReg | addReg | sub | shr | subn | shl => exact decodeWord_family8 _ _ _
  case skp | sknp => exact decodeWord_familyE _ _
  case ldVxDt | ldVxK | ldDtVx | ldStVx | addI | ldF | ldB | ldMemVx | ldVxMem => exact decodeWord_familyF _ _

/-! ### A word from the digits that select its instruction and its own other fields -/

section
variable {w : Word} {op n : BitVec 4} {kk : Byte}

theorem wordNNN_of_op (hop : (opField w).toNat = op.toNat) : wordNNN op (nnnField w) = w := by
  rw [← BitVec.eq_of_toNat_eq hop, wordNNN_fields]

theorem wordXKK_of_op (hop : (opField w).toNat = op.toNat) : wordXKK op (xField w) (kkField w) = w := by
  rw [← BitVec.eq_of_toNat_eq hop, wordXKK_fields]

theorem wordXKK_of_op_kk (hop : (opField w).toNat = op.toNat) (hkk : (kkField w).toNat = kk.toNat) :
    wordXKK op (xField w) kk = w := by
  rw [← BitVec.eq_of_toNat_eq hkk, wordXKK_of_op hop]

theorem wordXYN_of_op (hop : (opField w).toNat = op.toNat) :
    wordXYN op (xField w) (yField w) (nField w) = w := by
  rw [← BitVec.eq_of_toNat_eq hop, wordXYN_fields]

theorem wordXYN_of_op_n (hop : (opField w).toNat = op.toNat) (hn : (nField w).toNat = n.toNat) :
    wordXYN op (xField w) (yField w) n = w := by
  rw [← BitVec.eq_of_toNat_eq hn, wordXYN_of_op hop]

/-! ### The instruction a family's decoder answers encodes to the word -/

variable {i : Instr}

theorem encode_of_decode8 (hop : (opField w).toNat = 8)
    (h : decode8 (xField w).toFin (yField w).toFin (nField w) = some i) : encode i = w := by
  unfold decode8 at h
  split at h <;> cases h <;> exact wordXYN_of_op_n hop ‹_›

theorem encode_of_decodeE (hop : (opField w).toNat = 0xE) (h : decodeE (xField w).toFin (kkField w) = some i) :
    encode i = w := by
  unfold decodeE at h
  split at h <;> cases h <;> exact wordXKK_of_op_kk hop ‹_›

theorem encode_of_decodeF (hop : (opField w).toNat = 0xF) (h : decodeF (xField w).toFin (kkField w) = some i) :
    encode i = w := by
  unfold decodeF at h
  split at h <;> cases h <;> exact wordXKK_of_op_kk hop ‹_›

end

/-- Settles O39, family by family: each instruction keeps every field of the word that its family does not fix. -/
theorem encodeInvertsDecode : Obligations.EncodeInvertsDecode := by
  intro w i h
  unfold decodeWord decodeFields at h
  split at h
  case h_1 hop =>
    split_ifs at h with hcls hret <;> cases h
    · exact hcls.symm
    · exact hret.symm
  case h_2 hop | h_3 hop | h_11 hop | h_12 hop => cases h; exact wordNNN_of_op hop
  case h_4 hop | h_5 hop | h_7 hop | h_8 hop | h_13 hop => cases h; exact wordXKK_of_op hop
  case h_6 hop | h_10 hop =>
    split_ifs at h with hn
    cases h
    exact wordXYN_of_op_n hop (congrArg BitVec.toNat hn)
  case h_9 hop => exact encode_of_decode8 hop h
  case h_14 hop => cases h; exact wordXYN_of_op hop
  case h_15 hop => exact encode_of_decodeE hop h
  case h_16 hop => exact encode_of_decodeF hop h
  case h_17 => cases h

/-! ### The illegal words of a family (R96) -/

section
variable (x y : Reg) (n : BitVec 4) (kk : Byte)

theorem decode8_eq_none_iff : decode8 x y n = none ↔ n.toNat ∈ [0x8, 0x9, 0xA, 0xB, 0xC, 0xD, 0xF] := by
  have hn := n.isLt
  unfold decode8
  split <;> simp_all
  omega

theorem decodeE_eq_none_iff : decodeE x kk = none ↔ kk.toNat ∉ [0x9E, 0xA1] := by
  unfold decodeE
  split <;> simp_all

theorem decodeF_eq_none_iff :
    decodeF x kk = none ↔ kk.toNat ∉ [0x07, 0x0A, 0x15, 0x18, 0x1E, 0x29, 0x33, 0x55, 0x65] := by
  unfold decodeF
  split <;> simp_all

end

/-- Settles O41, family by family: the families without a selecting field have no illegal word. -/
theorem illegalWordsByFamily : Obligations.IllegalWordsByFamily := by
  intro w
  have hlt := w.isLt
  unfold decodeWord decodeFields
  split
  case h_1 hop =>
    rw [opField_toNat] at hop
    have hcls : w = 0x00E0 ↔ w.toNat = 0x00E0 := BitVec.toNat_inj.symm
    have hret : w = 0x00EE ↔ w.toNat = 0x00EE := BitVec.toNat_inj.symm
    split_ifs with h h' <;> simp_all
  case h_6 hop | h_10 hop =>
    rw [opField_toNat] at hop
    have hn : nField w = 0 ↔ w.toNat % 16 = 0 := by rw [← nField_toNat]; exact BitVec.toNat_inj.symm
    split_ifs with h <;> simp_all
  case h_9 hop => rw [opField_toNat] at hop; simp [decode8_eq_none_iff, nField_toNat, hop]
  case h_15 hop => rw [opField_toNat] at hop; simp [decodeE_eq_none_iff, kkField_toNat, hop]
  case h_16 hop => rw [opField_toNat] at hop; simp [decodeF_eq_none_iff, kkField_toNat, hop]
  case h_17 =>
    have hop := (opField w).isLt
    exfalso
    simp only [imp_false] at *
    omega
  case h_2 hop | h_3 hop | h_4 hop | h_5 hop | h_7 hop | h_8 hop | h_11 hop | h_12 hop | h_13 hop | h_14 hop =>
    rw [opField_toNat] at hop
    simp [hop]

/-! ### The decoder against the rows of the table (R94, R95) -/

section
variable {r : OpRow} {w : Word}

/-- A row whose mask covers a field fixes that field of every word it admits. -/
theorem extractLsb'_of_admits (start len : Nat) (hm : r.mask.extractLsb' start len = BitVec.allOnes len)
    (h : r.admits w = true) : w.extractLsb' start len = r.value.extractLsb' start len := by
  rw [← eq_of_beq h, BitVec.extractLsb'_and, hm, BitVec.and_allOnes]

/-- The mask of a row covers op and whatever else selects an instruction in the row's family. -/
theorem opcodeRows_mask_covers : ∀ r ∈ opcodeRows, opField r.mask = 0xF ∧
    (r.value.toNat / 4096 = 0 → r.mask = 0xFFFF) ∧
    (r.value.toNat / 4096 ∈ [5, 8, 9] → nField r.mask = 0xF) ∧
    (r.value.toNat / 4096 ∈ [0xE, 0xF] → kkField r.mask = 0xFF) := by decide

theorem opcodeRows_value_decodes : ∀ r ∈ opcodeRows, decodeWord r.value ≠ none := by decide

/-- A word that a row admits agrees with the row's value in op and in what selects in its family, so it is as legal as
the value is (R96). -/
theorem decodeWord_ne_none_of_admits (hr : r ∈ opcodeRows) (h : r.admits w = true) : decodeWord w ≠ none := by
  obtain ⟨hop, hfull, hn, hkk⟩ := opcodeRows_mask_covers r hr
  have hfamily : w.toNat / 4096 = r.value.toNat / 4096 := by
    rw [← opField_toNat, opField, extractLsb'_of_admits _ _ hop h, ← opField, opField_toNat]
  have hlow4 (hsel : r.value.toNat / 4096 ∈ [5, 8, 9]) : w.toNat % 16 = r.value.toNat % 16 := by
    rw [← nField_toNat, nField, extractLsb'_of_admits _ _ (hn hsel) h, ← nField, nField_toNat]
  have hlow8 (hsel : r.value.toNat / 4096 ∈ [0xE, 0xF]) : w.toNat % 256 = r.value.toNat % 256 := by
    rw [← kkField_toNat, kkField, extractLsb'_of_admits _ _ (hkk hsel) h, ← kkField, kkField_toNat]
  refine fun hillegal => opcodeRows_value_decodes r hr ((illegalWordsByFamily r.value).mpr ?_)
  have hw := (illegalWordsByFamily w).mp hillegal
  rw [hfamily] at hw
  rcases hw with ⟨hf, -, -⟩ | ⟨hf, hs⟩ | ⟨hf, hs⟩ | ⟨hf, hs⟩ | ⟨hf, hs⟩
  · have hvalue : w = r.value := by
      rw [← eq_of_beq h, hfull hf]; exact BitVec.and_allOnes.symm
    exact (illegalWordsByFamily r.value).mp (hvalue ▸ hillegal)
  · exact .inr (.inl ⟨hf, hlow4 (by simp; omega) ▸ hs⟩)
  · exact .inr (.inr (.inl ⟨hf, hlow4 (by simp [hf]) ▸ hs⟩))
  · exact .inr (.inr (.inr (.inl ⟨hf, hlow8 (by simp [hf]) ▸ hs⟩)))
  · exact .inr (.inr (.inr (.inr ⟨hf, hlow8 (by simp [hf]) ▸ hs⟩)))

end

open Laws.EncodingInRow in
/-- The encoding of an instruction lies in the instruction's row, which is one of the table (R92, R94). -/
theorem encode_in_row : ∀ i : Instr, Laws.EncodingInRow.Statement i
  | .cls => cls
  | .ret => ret
  | .jp nnn => jp nnn
  | .call nnn => call nnn
  | .seImm x kk => seImm x kk
  | .sneImm x kk => sneImm x kk
  | .seReg x y => seReg x y
  | .ldImm x kk => ldImm x kk
  | .addImm x kk => addImm x kk
  | .ldReg x y => ldReg x y
  | .orReg x y => orReg x y
  | .andReg x y => andReg x y
  | .xorReg x y => xorReg x y
  | .addReg x y => addReg x y
  | .sub x y => sub x y
  | .shr x y => shr x y
  | .subn x y => subn x y
  | .shl x y => shl x y
  | .sneReg x y => sneReg x y
  | .ldI nnn => ldI nnn
  | .jpV0 nnn => jpV0 nnn
  | .rnd x kk => rnd x kk
  | .drw x y n => drw x y n
  | .skp x => skp x
  | .sknp x => sknp x
  | .ldVxDt x => ldVxDt x
  | .ldVxK x => ldVxK x
  | .ldDtVx x => ldDtVx x
  | .ldStVx x => ldStVx x
  | .addI x => addI x
  | .ldF x => ldF x
  | .ldB x => ldB x
  | .ldMemVx x => ldMemVx x
  | .ldVxMem x => ldVxMem x

/-- Two rows that agree wherever both masks look are one row. -/
theorem opcodeRows_disjoint : ∀ p ∈ opcodeRows, ∀ q ∈ opcodeRows, p.value &&& q.mask = q.value &&& p.mask → p = q := by
  decide

/-- Settles O40: a word that decodes is the encoding of an instruction, which lies in the instruction's row. -/
theorem decodeAgreesWithOpcodeTable : Obligations.DecodeAgreesWithOpcodeTable := by
  have hrow (w : Word) (i : Instr) (h : decodeWord w = some i) : i.row ∈ opcodeRows ∧ i.row.admits w = true :=
    encodeInvertsDecode w i h ▸ encode_in_row i
  refine ⟨fun w => ?_, hrow, fun w p q hp hq hpw hqw => opcodeRows_disjoint p hp q hq ?_⟩
  · rw [Bool.eq_iff_iff, Option.isSome_iff_exists, wordLegal, List.any_eq_true]
    constructor
    · rintro ⟨i, hi⟩
      exact ⟨i.row, hrow w i hi⟩
    · rintro ⟨r, hr, hadm⟩
      exact Option.ne_none_iff_exists'.mp (decodeWord_ne_none_of_admits hr hadm)
  · rw [← eq_of_beq hpw, ← eq_of_beq hqw, BitVec.and_assoc, BitVec.and_assoc, BitVec.and_comm p.mask]

/-- Settles O42: ten closed words, read by the decoder. -/
theorem writtenOutWordsDecode : Obligations.WrittenOutWordsDecode := by
  unfold Obligations.WrittenOutWordsDecode
  decide

end Sys2Proof.Machine
end

section
/-! PROOFS. STEP and its faults (40_execution_cycle.md, 60_exceptions.md R281, 20_memory.md R64): the admission table, that
every STEP has a next state, and the codes an instruction raises. -/

namespace Sys2Proof.Machine

/-- Settles O46: for each class, an address it admits and one it does not. -/
theorem admissionByRegion : Obligations.AdmissionByRegion := by
  intro p a hp
  refine ⟨?_, ?_, ?_⟩
  · split_ifs with hin
    · exact (checkAddr_fetch_eq_none_iff p a).mpr hin
    · exact checkAddr_fetch_of_not_inProgram hin
  · split_ifs with hlt
    · exact checkAddr_sprite_of_lt hlt
    · exact checkAddr_sprite_of_ge hp (by omega)
  · split_ifs with hin hge
    · exact (checkAddr_block_eq_none_iff p a).mpr hin
    · rw [checkAddr_block_of_not_inProgram hp hin, blockFault, if_pos hge]
    · rw [checkAddr_block_of_not_inProgram hp hin, blockFault, if_neg hge]

/-- Settles O34: neither an instruction nor the fetch, the decode or the faulted core stops the machine. -/
theorem everyStepHasNextState : Obligations.EveryStepHasNextState := ⟨exec_total, step_total⟩

/-- Settles O33: the two bytes at PC are the word the fetch reads. -/
theorem stepIsExecOfDecodedBytes : Obligations.StepIsExecOfDecodedBytes := by
  intro s i rest hc h0 h1 hdecode
  obtain ⟨hword, hrest⟩ := (decode_two_bytes _ _ _ _ _).mp hdecode
  have hfetch : s.fetchFailure = none := s.fetchFailure_eq_none_iff.mpr ⟨h0, h1⟩
  exact ⟨hrest, step_of_ok hc ((s.fetchDecode_eq_ok_iff i).mpr ⟨hfetch, hword⟩)⟩

/-- Settles O44: what completes leaves FAULT clear, and a fault entry has a code of the instruction's row. -/
theorem instructionsRaiseOnlyTheirCodes : Obligations.InstructionsRaiseOnlyTheirCodes := by
  intro i s t hc h
  rcases exec_cases h with hdone | ⟨c, n, hraise, rfl⟩
  · exact .inl (hdone.fault_eq ▸ hc)
  · exact .inr hraise

end Sys2Proof.Machine
end

section
/-! PROOFS. The invariant of Safety.lean: it holds at reset, and every STEP and every other host transaction keeps it; with
what follows from it, that no PC update wraps and that no byte outside the program region changes. -/

namespace Sys2Proof.Machine

/-- The entry a pop reads is a live one. -/
theorem State.topIndex_lt (s : State) (h : 0 < s.sp.val) : (Fin.ofNat 16 (s.sp.val - 1)).val < s.sp.val := by
  simp only [Fin.val_ofNat]
  omega

/-! ### What the invariant says of a core that is not faulted -/

section
variable {s : State}

theorem State.Inv.fault_eq_clear (h : s.Inv) (hc : s.fault.code = .none) : s.fault = .clear := by
  have hmeaning := h.faultInfo
  unfold faultMeaning at hmeaning
  rw [hc] at hmeaning
  exact hmeaning

/-- A live stack entry is the address of a fetched 2nnn, so the entry plus 2 is at most 0x1000 (R160). -/
theorem State.Inv.callSite_bounds (h : s.Inv) {j : Fin 16} (hj : j.val < s.sp.val) :
    0x200 ≤ s.observe (.stack j) ∧ s.observe (.stack j) + 2 ≤ 0x1000 := by
  obtain ⟨⟨hlow, -⟩, -, hhigh⟩ := h.callSites j hj
  obtain ⟨-, hend⟩ := h.settings
  exact ⟨hlow, by rw [State.observe_stack]; omega⟩

theorem State.Inv.pc_le_of_fetched (h : s.Inv) (hf : s.fetchFailure = none) : s.pc.toNat ≤ 0xFFE := by
  obtain ⟨-, -, hhigh⟩ := s.fetchFailure_eq_none_iff.mp hf
  obtain ⟨-, hend⟩ := h.settings
  omega

end

/-! ### The fault entries keep it: FAULT says what its code stands for (60_exceptions.md R281) -/

section
variable {s : State}

theorem State.fetchFailure_cases {f : Failure} (h : s.fetchFailure = some f) :
    (¬ InProgram s.params s.pc.toNat ∧ f = (.fetchOutOfRange, s.pc.toNat)) ∨
    (InProgram s.params s.pc.toNat ∧ ¬ InProgram s.params (s.pc.toNat + 1) ∧
      f = (.fetchOutOfRange, s.pc.toNat + 1)) := by
  by_cases h0 : InProgram s.params s.pc.toNat
  · by_cases h1 : InProgram s.params (s.pc.toNat + 1)
    · rw [s.fetchFailure_eq_none_iff.mpr ⟨h0, h1⟩] at h
      cases h
    · exact .inr ⟨h0, h1, Option.some.inj (h.symm.trans (State.fetchFailure_of_pc_add_one h0 h1))⟩
  · exact .inl ⟨h0, Option.some.inj (h.symm.trans (State.fetchFailure_of_pc h0))⟩

theorem checkRange_sprite_failure {p : Params} (hp : p.wf) {base n : Nat} {f : Failure}
    (h : checkRange p .sprite base n = some f) : ∃ q < n, 0x1000 ≤ base + q ∧ f = (.memoryOutOfRange, base + q) := by
  obtain ⟨q, hq, hcheck, -⟩ := (checkRange_eq_some_iff _ _ _ _ _).mp h
  rw [(admissionByRegion p (base + q) hp).2.1] at hcheck
  split_ifs at hcheck with hlt
  exact ⟨q, hq, by omega, (Option.some.inj hcheck).symm⟩

theorem checkRange_block_failure {p : Params} (hp : p.wf) {base n : Nat} {f : Failure}
    (h : checkRange p .block base n = some f) :
    ∃ q < n, ¬ InProgram p (base + q) ∧ f = (blockFault (base + q), base + q) := by
  obtain ⟨q, hq, hcheck, -⟩ := (checkRange_eq_some_iff _ _ _ _ _).mp h
  have hin : ¬ InProgram p (base + q) := fun hin => by
    rw [(checkAddr_block_eq_none_iff _ _).mpr hin] at hcheck
    cases hcheck
  exact ⟨q, hq, hin, Option.some.inj (hcheck.symm.trans (checkAddr_block_of_not_inProgram hp hin))⟩

/-- The info of a fault entry, where it fits FAULT.info. -/
theorem State.raise_fault_info_toNat (c : FaultCode) {n : Nat} (h : n < 2 ^ 17) :
    (s.raise c n).fault.info.toNat = n := raise_info_toNat h

theorem State.Inv.raise_fetch_or_decode (h : s.Inv) {f : Failure} (hd : s.fetchDecode = .error f) :
    (s.raise f.1 f.2).Inv := by
  have hinfo := s.raise_fault_info_toNat f.1 (State.fetchDecode_info_lt hd)
  refine h.raise ?_
  rcases (s.fetchDecode_eq_error_iff f).mp hd with hf | ⟨-, hw, rfl⟩
  · rcases State.fetchFailure_cases hf with ⟨h0, rfl⟩ | ⟨h0, h1, rfl⟩
    · exact ⟨by rwa [hinfo], .inl hinfo⟩
    · exact ⟨by rwa [hinfo], .inr ⟨hinfo, h0⟩⟩
  · have hillegal : wordLegal s.fetchWord = false := by
      rw [← decodeAgreesWithOpcodeTable.1, hw]; rfl
    exact ⟨s.fetchWord, hillegal, hinfo⟩

theorem State.Inv.raise_sprite (h : s.Inv) {n : Fin 16} {f : Failure}
    (hf : checkRange s.params .sprite s.i.toNat n = some f) : (s.raise f.1 f.2).Inv := by
  obtain ⟨q, hq, hge, rfl⟩ := checkRange_sprite_failure h.settings hf
  exact h.raise (hge.trans_eq (s.raise_fault_info_toNat _ (by omega)).symm)

theorem State.Inv.raise_block (h : s.Inv) {n : Nat} (hn : n ≤ 16) {f : Failure}
    (hf : checkRange s.params .block s.i.toNat n = some f) : (s.raise f.1 f.2).Inv := by
  obtain ⟨q, hq, hin, rfl⟩ := checkRange_block_failure h.settings hf
  have hinfo (c : FaultCode) := s.raise_fault_info_toNat c (n := s.i.toNat + q) (by omega)
  refine h.raise ?_
  unfold blockFault
  split_ifs with hge
  · exact hge.trans_eq (hinfo _).symm
  · exact ⟨by rw [hinfo]; omega, by rwa [hinfo]⟩

/-- A key number or a digit that is a byte above 0xF. -/
theorem State.Inv.raise_digit (h : s.Inv) {b : Byte} (hb : 0xF < b.toNat) {c : FaultCode}
    (hc : c = .keyIndexOutOfRange ∨ c = .fontDigitOutOfRange) : (s.raise c b.toNat).Inv := by
  have hbyte := b.isLt
  have hinfo (c : FaultCode) := s.raise_fault_info_toNat c (n := b.toNat) (by omega)
  rcases hc with rfl | rfl <;> exact h.raise ⟨by rwa [hinfo], by rwa [hinfo]⟩

/-- An instruction completes, or its fault entry keeps the invariant. -/
theorem State.Inv.completes_or_raise {i : Instr} {t : State} (h : s.Inv) (he : exec i s = .next t) :
    Completes i s t ∨ t.Inv := by
  cases i
  case ret => exact (execRet_cases he).imp_right fun ⟨h0, ht⟩ => ht ▸ h.raise ⟨h0, rfl⟩
  case call => exact (execCall_cases he).imp_right fun ⟨hfull, ht⟩ => ht ▸ h.raise ⟨hfull, rfl⟩
  case skp => exact (execSkp_cases he).imp_right fun ⟨hgt, ht⟩ => ht ▸ h.raise_digit hgt (.inl rfl)
  case sknp => exact (execSknp_cases he).imp_right fun ⟨hgt, ht⟩ => ht ▸ h.raise_digit hgt (.inl rfl)
  case ldF => exact (execLdF_cases he).imp_right fun ⟨hgt, ht⟩ => ht ▸ h.raise_digit hgt (.inr rfl)
  case drw => exact (execDrw_cases he).imp_right fun ⟨_, hf, ht⟩ => ht ▸ h.raise_sprite hf
  case ldB => exact (execLdB_cases he).imp_right fun ⟨_, hf, ht⟩ => ht ▸ h.raise_block (by decide) hf
  case ldMemVx x => exact (execLdMemVx_cases he).imp_right fun ⟨_, hf, ht⟩ => ht ▸ h.raise_block x.isLt hf
  case ldVxMem x => exact (execLdVxMem_cases he).imp_right fun ⟨_, hf, ht⟩ => ht ▸ h.raise_block x.isLt hf
  case ldVxK => exact .inl (execLdVxK_cases he)
  all_goals exact .inl he

end

/-! ### The PC of an instruction that completes, without a wrap (40_execution_cycle.md R129) -/

section
variable {i : Instr} {s t : State}

theorem Completes.pc_cases (h : Completes i s t) (hinv : s.Inv) (hpc : s.pc.toNat ≤ 0xFFE) :
    t.pc.toNat = s.pc.toNat ∨ t.pc.toNat = s.pc.toNat + 2 ∨ t.pc.toNat = s.pc.toNat + 4 ∨
    (∃ nnn, i = .jp nnn ∧ t.pc.toNat = nnn.toNat) ∨
    (∃ nnn, i = .call nnn ∧ t.pc.toNat = nnn.toNat) ∨
    (∃ nnn, i = .jpV0 nnn ∧ t.pc.toNat = s.V 0 + nnn.toNat) ∨
    (i = .ret ∧ 0 < s.sp.val ∧ t.pc.toNat = s.observe (.stack (Fin.ofNat 16 (s.sp.val - 1))) + 2) := by
  have hnext := h.pc_toNat
  cases i
  case ret =>
    obtain ⟨hsp, -⟩ := h
    obtain ⟨-, hhigh⟩ := hinv.callSite_bounds (s.topIndex_lt hsp)
    rw [nextPc, Nat.mod_eq_of_lt (by omega)] at hnext
    simp [hsp, hnext]
  case jp nnn => exact .inr (.inr (.inr (.inl ⟨nnn, rfl, hnext⟩)))
  case call nnn => exact .inr (.inr (.inr (.inr (.inl ⟨nnn, rfl, hnext⟩))))
  case jpV0 nnn => exact .inr (.inr (.inr (.inr (.inr (.inl ⟨nnn, rfl, hnext⟩)))))
  case seImm | sneImm | seReg | sneReg | skp | sknp | ldVxK =>
    simp only [nextPc] at hnext
    split at hnext <;> omega
  all_goals
    simp only [nextPc] at hnext
    omega

theorem Completes.pc_le (h : Completes i s t) (hinv : s.Inv) (hpc : s.pc.toNat ≤ 0xFFE) : t.pc.toNat ≤ 0x10FE := by
  rcases h.pc_cases hinv hpc with h | h | h | ⟨nnn, -, h⟩ | ⟨nnn, -, h⟩ | ⟨nnn, -, h⟩ | ⟨-, hsp, h⟩
  · omega
  · omega
  · omega
  · omega
  · omega
  · have hv := (s.reg 0).isLt
    rw [h]
    simp only [State.observe_reg]
    omega
  · obtain ⟨-, hhigh⟩ := hinv.callSite_bounds (s.topIndex_lt hsp)
    omega

/-- Only CALL and RET change the stack, and only Fx33 and Fx55 memory (10_state.md R41, 20_memory.md R69). -/
theorem Completes.keeps_stack_and_memory (h : Completes i s t) (hcall : ∀ nnn, i ≠ .call nnn) (hret : i ≠ .ret)
    (hstore : storesBytes i = 0) : t.params = s.params ∧ t.mem = s.mem ∧ t.stack = s.stack ∧ t.sp = s.sp := by
  cases i
  case call nnn => exact absurd rfl (hcall nnn)
  case ret => exact absurd rfl hret
  case ldB | ldMemVx => cases hstore
  case skp | sknp | ldF => obtain ⟨_, -, rfl⟩ := h; exact ⟨rfl, rfl, rfl, rfl⟩
  case drw | ldVxMem => obtain ⟨-, rfl⟩ := h; simp
  case ldVxK => rcases h with ⟨_, -, rfl⟩ | ⟨-, rfl⟩ <;> exact ⟨rfl, rfl, rfl, rfl⟩
  case rnd => cases h; simp
  all_goals (cases h; exact ⟨rfl, rfl, rfl, rfl⟩)

/-- A store inside the program region, then PC moved on. -/
theorem State.Inv.writeBytes_advance (hinv : s.Inv) (hc : s.fault.code = .none) {a n : Nat} {bs : List Byte}
    (hn : bs.length = n) (hadm : checkRange s.params .block a n = none)
    (hpc : (s.writeBytes a bs).advance.pc.toNat ≤ 0x10FE) : (s.writeBytes a bs).advance.Inv := by
  subst hn
  have hstored : (s.writeBytes a bs).Inv := hinv.writeBytes ((checkRange_block_eq_none_iff _ _ _).mp hadm)
  exact hstored.of_newPc hc rfl rfl rfl rfl rfl hpc

/-- An instruction that completes keeps the invariant: a pushed entry is the address of the fetched CALL, and a store lies
inside the program region. -/
theorem Completes.inv (h : Completes i s t) (hinv : s.Inv) (hc : s.fault.code = .none) (hf : s.fetchFailure = none) :
    t.Inv := by
  have hpc := h.pc_le hinv (hinv.pc_le_of_fetched hf)
  have hkeep := h.keeps_stack_and_memory
  have hfault := h.fault_eq
  cases i
  case ret =>
    obtain ⟨hsp, rfl⟩ := h
    exact State.Inv.of_clear (hinv.fault_eq_clear hc) ⟨hinv.settings, hinv.memory, hinv.reserved, hpc,
      fun j hj => hinv.callSites j (hj.trans_le (Nat.sub_le _ _))⟩
  case call =>
    obtain ⟨hsp, rfl⟩ := h
    refine State.Inv.of_clear (hinv.fault_eq_clear hc) ⟨hinv.settings, hinv.memory, hinv.reserved, hpc, fun j hj => ?_⟩
    rw [State.setPc_stack, State.push_stack_get]
    split_ifs with hj'
    · exact s.fetchFailure_eq_none_iff.mp hf
    · exact hinv.callSites j (lt_of_le_of_ne (Nat.le_of_lt_succ hj) hj')
  case ldB => obtain ⟨hadm, rfl⟩ := h; exact hinv.writeBytes_advance hc rfl hadm hpc
  case ldMemVx x => obtain ⟨hadm, rfl⟩ := h; exact hinv.writeBytes_advance hc (s.regBlock_length x) hadm hpc
  all_goals
    obtain ⟨hparams, hmem, hstack, hsp⟩ := hkeep (by simp) (by simp) rfl
    exact hinv.of_newPc hc hparams hmem hstack hsp hfault hpc

end

/-! ### The statements about STEP -/

/-- Settles O49: the faulted core stays, a failed fetch or decode is a fault entry, and an instruction completes or is
one. -/
theorem stepKeepsInvariant : Obligations.StepKeepsInvariant := by
  intro s t h hstep
  rcases step_cases hstep with ⟨-, rfl⟩ | ⟨-, f, hd, rfl⟩ | ⟨hc, i, hd, he⟩
  · exact h
  · exact h.raise_fetch_or_decode hd
  · obtain ⟨hf, -⟩ := (s.fetchDecode_eq_ok_iff i).mp hd
    rcases h.completes_or_raise he with hdone | ht
    · exact hdone.inv h hc hf
    · exact ht

/-- Settles O37: what completes leaves one of the exact sums and targets, and a PC outside the region fails the next
fetch. -/
theorem pcNeverWraps : Obligations.PcNeverWraps := by
  intro s t i hinv hc hd hstep
  obtain ⟨hf, -⟩ := (s.fetchDecode_eq_ok_iff i).mp hd
  have hpc := hinv.pc_le_of_fetched hf
  refine ⟨hpc, (stepKeepsInvariant s t hinv hstep).pcBound, fun ht => ?_, fun ht hout => ?_⟩
  · rw [step_of_ok hc hd] at hstep
    rcases exec_cases hstep with hdone | ⟨c, n, hraise, rfl⟩
    · exact hdone.pc_cases hinv hpc
    · exact absurd ht (mayRaise_ne_none hraise)
  · exact ((stepFetchesDecodesExecutes t).2 ht).1 hout

/-! ### The other transactions, and schedules -/

/-- Settles O48: at reset memory lists nothing, the stack is empty and FAULT is clear. -/
theorem resetMeetsInvariant : Obligations.ResetMeetsInvariant :=
  State.Inv.of_clear rfl ⟨by decide, rfl, by simp [State.reset], by decide, by simp [State.reset]⟩

section
variable {s t : State}

theorem State.Inv.resetCore (h : s.Inv) : (resetCore s).Inv :=
  State.Inv.of_clear rfl ⟨h.settings, rfl, fun _ hc => absurd hc List.not_mem_nil, resetMeetsInvariant.pcBound,
    fun _ hj => absurd hj (Nat.not_lt_zero _)⟩

theorem State.Inv.loadRom (h : s.Inv) (bytes : List Byte) : (loadRom bytes s).Inv := by
  unfold Machine.loadRom
  split_ifs with hbig
  · exact h
  · have hfit : bytes.length ≤ s.params.programEnd - 0x200 := by simpa [romTooLarge] using hbig
    refine h.writeBytes fun j hj => ?_
    simp only [InProgram, Config.programStart]
    omega

theorem State.Inv.stepRand {r : Byte} (h : s.Inv) (hs : stepRand r s = .next t) : t.Inv := by
  obtain ⟨u, hu, rfl⟩ := stepRand_eq_next_iff.mp hs
  have hstart : ({ s with draws := [r] } : State).Inv := h.of_same rfl rfl rfl rfl rfl rfl
  exact (stepKeepsInvariant _ u hstart hu).of_same rfl rfl rfl rfl rfl rfl

theorem State.Inv.transact {tr : Transaction} (h : s.Inv) (ht : transact tr s = .next t) : t.Inv := by
  cases tr
  case reset => cases ht; exact h.resetCore
  case loadRom bytes => cases ht; exact h.loadRom bytes
  case setKeys | tick => cases ht; exact h.of_same rfl rfl rfl rfl rfl rfl
  case step r => exact h.stepRand ht
  case readFb | readSound | readFault | readState => cases ht; exact h

end

theorem transact_total (tr : Transaction) (s : State) : ∃ t, transact tr s = .next t := by
  cases tr
  case step r => exact stepRand_total r s
  all_goals exact ⟨_, rfl⟩

theorem runSchedule_total (sched : List Transaction) (s : State) : ∃ t, runSchedule sched s = .next t := by
  induction sched generalizing s with
  | nil => exact ⟨s, rfl⟩
  | cons tr rest ih =>
    obtain ⟨u, hu⟩ := transact_total tr s
    obtain ⟨t, ht⟩ := ih u
    exact ⟨t, runSchedule_cons_eq_next_iff.mpr ⟨u, hu, ht⟩⟩

theorem State.Inv.runSchedule {sched : List Transaction} {s t : State} (h : s.Inv)
    (ht : runSchedule sched s = .next t) : t.Inv :=
  runSchedule_induction (fun _ _ _ _ hs => hs.transact) h ht

/-- Settles O50: every transaction has a next state and keeps the invariant. -/
theorem schedulesKeepInvariant : Obligations.SchedulesKeepInvariant := by
  intro sched s h
  obtain ⟨t, ht⟩ := runSchedule_total sched s
  exact ⟨t, ht, h.runSchedule ht⟩

/-! ### Memory outside the program region (20_memory.md R64, 70_reset_and_hazards.md R333) -/

/-- No transaction changes the machine's settings. -/
theorem transact_params {tr : Transaction} {s t : State} (h : transact tr s = .next t) : t.params = s.params := by
  cases tr
  case loadRom bytes => cases h; rw [loadRom_eq]
  case step r =>
    obtain ⟨u, hu, rfl⟩ := stepRand_eq_next_iff.mp h
    rcases step_cases hu with ⟨-, rfl⟩ | ⟨-, f, -, rfl⟩ | ⟨-, i, -, he⟩
    · rfl
    · rfl
    · exact exec_params (s := { s with draws := [r] }) (t := u) he
  all_goals (cases h; rfl)

theorem runSchedule_params {sched : List Transaction} {s t : State} (h : runSchedule sched s = .next t) :
    t.params = s.params :=
  runSchedule_induction (P := fun u => u.params = s.params) (fun _ _ _ _ hu ht => (transact_params ht).trans hu) rfl h

/-- An address that memory does not list reads as what RESET leaves there. -/
theorem Memory.read_of_not_listed (font : Vector Byte Config.fontSize) {m : Memory} {a : Nat}
    (h : ∀ c ∈ m, c.1 ≠ a) : Memory.read font m a = Memory.unlisted font a := by
  induction m with
  | nil => rfl
  | cons c rest ih =>
    obtain ⟨hc, hrest⟩ := List.forall_mem_cons.mp h
    rw [Memory.read, if_neg hc, ih hrest]

theorem State.Inv.readByte_of_not_inProgram {s : State} (h : s.Inv) {a : Nat} (ha : ¬ InProgram s.params a) :
    s.readByte a = Memory.unlisted s.params.fontData a :=
  Memory.read_of_not_listed _ fun c hc he => ha (he ▸ h.reserved c hc)

/-- Settles O51: the invariant at the end of the schedule lists no address outside the program region. -/
theorem reservedMemoryKeepsResetBytes : Obligations.ReservedMemoryKeepsResetBytes := by
  intro sched s t a h ht ha
  have hparams := runSchedule_params ht
  have hread := (h.runSchedule ht).readByte_of_not_inProgram (hparams ▸ ha)
  rw [State.observe_mem, hread, hparams]
  rfl

end Sys2Proof.Machine
end

section
/-! PROOFS. What two instructions do in a row, and what an instruction's one STEP leaves for the next (41_display.md,
42_control_flow.md, 44_index_memory.md, 95_test_vectors.md E5, E7, E9), and the draw of a STEP (R131). -/

namespace Sys2Proof.Machine

/-! ### Two draws in a row (41_display.md R141) -/

section
variable {x y : Reg} {n : Fin 16} {s : State}

/-- A cell after a draw: toggled where the sprite lights it. -/
theorem exec_drw_cell {t : State} (hadm : ∀ r : Fin 16, r < n → s.i.toNat + r.val < 0x1000)
    (h : exec (.drw x y n) s = .next t) (cx : Fin 64) (cy : Fin 32) :
    t.fb.cell cx cy = (s.fb.cell cx cy ^^ spriteLights s x y n cx cy) := by
  obtain rfl := Host.Outcome.next.inj (h.symm.trans (exec_drw_of_admitted x y hadm))
  exact s.drawn_cell x y n cx cy

/-- VF after a draw: whether the sprite lights a cell that was lit. -/
theorem exec_drw_VF_eq_one_iff {t : State} (hadm : ∀ r : Fin 16, r < n → s.i.toNat + r.val < 0x1000)
    (h : exec (.drw x y n) s = .next t) :
    t.V VF = 1 ↔ ∃ cx cy, spriteLights s x y n cx cy = true ∧ s.observe (.cell cx cy) = 1 := by
  obtain rfl := Host.Outcome.next.inj (h.symm.trans (exec_drw_of_admitted x y hadm))
  rw [← s.drawn_hit_iff x y n]
  simp [collisionFlag]

/-- A draw by registers other than VF leaves what the next one reads: the coordinates and the sprite. -/
theorem spriteLights_after_drw {t : State} (hx : x ≠ VF) (hy : y ≠ VF) (h : exec (.drw x y n) s = .next t)
    (cx : Fin 64) (cy : Fin 32) : spriteLights t x y n cx cy = spriteLights s x y n cx cy := by
  have hkeep (e : Element) (he : touches s (.drw x y n) e = false) : t.observe e = s.observe e :=
    tableRowIsCompleteEffect _ s t e h he
  have hi : t.i = s.i := BitVec.eq_of_toNat_eq (hkeep .i rfl)
  have hmem (a : Nat) : t.observe (.mem a) = s.observe (.mem a) := hkeep _ (by simp [touches, storesBytes])
  have hVx : t.V x = s.V x := hkeep _ (by simpa [touches, writesReg] using hx)
  have hVy : t.V y = s.V y := hkeep _ (by simpa [touches, writesReg] using hy)
  simp only [spriteLights, hi, hmem, hVx, hVy]

end

/-- Settles O3: both draws toggle the same cells, and of those the second meets lit the ones the first met dark. -/
theorem drwTwiceRestoresCells : Obligations.DrwTwiceRestoresCells := by
  intro x y n s t u hx hy _ hadm hst htu
  have hi : t.i = s.i := BitVec.eq_of_toNat_eq (tableRowIsCompleteEffect _ s t .i hst rfl)
  have hadm' : ∀ r : Fin 16, r < n → t.i.toNat + r.val < 0x1000 := hi ▸ hadm
  have hlights := spriteLights_after_drw hx hy hst
  have hcell := exec_drw_cell hadm hst
  refine ⟨fun cx cy => ?_, ?_⟩
  · rw [State.observe_cell, State.observe_cell, exec_drw_cell hadm' htu, hlights, hcell, Bool.xor_assoc, Bool.xor_self,
      Bool.xor_false]
  · rw [exec_drw_VF_eq_one_iff hadm' htu]
    refine exists_congr fun cx => exists_congr fun cy => ?_
    rw [hlights, State.observe_cell, State.observe_cell, hcell]
    cases s.fb.cell cx cy <;> cases spriteLights s x y n cx cy <;> simp

/-! ### RET, and CALL followed by RET (42_control_flow.md R160, R170) -/

section
variable (s : State)

/-- A pop, then a jump: the depth and PC are written, and nothing else. -/
theorem State.pop_setPc_effect (a : Word) {j : Nat} (hj : s.sp.val = j + 1) :
    Effect s (s.pop.setPc a) (lastWrite [(.sp, j), (.pc, a.toNat)]) := by
  refine ⟨fun e => ?_, rfl, rfl, rfl⟩
  cases e
  case sp => simp [hj]
  all_goals simp

end

theorem exec_ret_of_pos {s : State} (h : 0 < s.sp.val) : exec .ret s = .next (s.pop.setPc (s.top h + 2)) := dif_pos h

theorem exec_ret_of_empty {s : State} (h : s.sp.val = 0) : exec .ret s = .next (s.raise .stackUnderflow 0) :=
  dif_neg (by omega)

/-- Settles O5: at depth j + 1 a pop and a jump, at depth 0 the fault entry, and the bounds of a live call site. -/
theorem retPopsCallSiteOrFaults : Obligations.RetPopsCallSiteOrFaults := by
  refine ⟨by decide, fun s => ⟨fun j hj => ?_, fun hempty => ?_, fun j hinv hj => ?_⟩⟩
  · have hpos : 0 < s.sp.val := by rw [State.observe_sp] at hj; omega
    refine ⟨_, exec_ret_of_pos hpos, ?_⟩
    have htop : (s.top hpos + 2).toNat = (s.observe (.stack j) + 2) % 65536 := by
      have hidx : Fin.ofNat 16 (s.sp.val - 1) = j := by
        rw [State.observe_sp] at hj
        simp [hj]
      rw [pc_add_two_toNat, State.top_toNat, hidx]
    exact htop ▸ s.pop_setPc_effect _ hj
  · exact ⟨_, exec_ret_of_empty hempty, s.raise_effect .stackUnderflow (by omega)⟩
  · exact hinv.callSite_bounds (by rw [State.observe_sp] at hj; omega)

theorem core_run_two {s t u : State} (hst : step s = .next t) (htu : step t = .next u) : core.run 2 s = .next u := by
  simp only [Host.Core.run, core, hst, htu]

/-- Settles O10: the CALL leaves memory, so the RET is fetched at its target and pops the entry the CALL pushed. -/
theorem callThenRetResumesAfterCall : Obligations.CallThenRetResumesAfterCall := by
  intro s nnn hp hc hsp hcall hret
  have hlt : s.sp.val < 16 := hsp
  have hfetch : ((s.push s.pc hlt).setPc (zextAddr nnn)).fetchDecode = .ok .ret :=
    (State.fetchDecode_congr rfl rfl rfl).trans hret
  have hcalled : step s = .next ((s.push s.pc hlt).setPc (zextAddr nnn)) :=
    (step_of_ok hc hcall).trans (exec_call_of_lt nnn hlt)
  have hreturned := (step_of_ok (s := (s.push s.pc hlt).setPc (zextAddr nnn)) hc hfetch).trans
    (exec_ret_of_pos (Nat.succ_pos _))
  have hpc : s.pc.toNat + 2 < 65536 := by
    obtain ⟨-, -, hhigh⟩ := s.fetchFailure_eq_none_iff.mp ((s.fetchDecode_eq_ok_iff _).mp hcall).1
    obtain ⟨-, hend⟩ := hp
    omega
  refine ⟨_, core_run_two hcalled hreturned, ?_, ?_, fun j hj => ?_⟩
  · simp [State.top, hpc]
  · simp
  · simp [hj.ne']

/-! ### A transfer of control to an address that cannot be fetched from (R169) -/

theorem addr_ofNat_toNat {a : Nat} (h : a < 4096) : (zextAddr (BitVec.ofNat 12 a)).toNat = a := by
  rw [zextAddr_toNat, BitVec.toNat_ofNat, Nat.mod_eq_of_lt h]

/-- A STEP of a jump or of a call below depth 16 leaves PC at the target, FAULT clear and the settings. -/
theorem step_of_transfer {s : State} {i : Instr} {target : Nat} (hc : s.fault.code = .none) (hd : s.fetchDecode = .ok i)
    (hi : (i = .jp (BitVec.ofNat 12 target) ∧ target < 4096) ∨
      (i = .call (BitVec.ofNat 12 target) ∧ target < 4096 ∧ s.observe .sp < 16) ∨
      (∃ nnn, i = .jpV0 nnn ∧ target = s.V 0 + nnn.toNat)) :
    ∃ t, step s = .next t ∧ t.fault = s.fault ∧ t.params = s.params ∧ t.pc.toNat = target := by
  rw [step_of_ok hc hd]
  rcases hi with ⟨rfl, htarget⟩ | ⟨rfl, htarget, hsp⟩ | ⟨nnn, rfl, rfl⟩
  · exact ⟨_, rfl, rfl, rfl, addr_ofNat_toNat htarget⟩
  · exact ⟨_, exec_call_of_lt _ hsp, rfl, rfl, addr_ofNat_toNat htarget⟩
  · exact ⟨_, rfl, rfl, rfl, Completes.pc_toNat (i := .jpV0 nnn) rfl⟩

/-- Settles O11: the transfer completes, and the fetch at the target fails with the first bad address. -/
theorem transferCompletesThenFetchFaults : Obligations.TransferCompletesThenFetchFaults := by
  intro s i target hc hd hi
  obtain ⟨t, hstep, hfault, hparams, rfl⟩ := step_of_transfer hc hd hi
  have hct : t.fault.code = .none := hfault ▸ hc
  obtain ⟨hbad, hbadNext, -⟩ := (stepFetchesDecodesExecutes t).2 hct
  rw [← hparams]
  exact ⟨t, hstep, hct, rfl, hbad, hbadNext⟩

/-! ### The draw of a STEP (40_execution_cycle.md R131, log 2) -/

/-- Settles O19: a STEP that does nothing, faults in its fetch or decode, or runs another instruction is the same for every
draw. -/
theorem onlyRndReadsTheDraw : Obligations.OnlyRndReadsTheDraw := by
  intro s r q hrnd
  by_cases hc : s.fault.code = .none
  · cases hd : s.fetchDecode with
    | error f => rw [stepRand_of_error hc hd, stepRand_of_error hc hd]
    | ok i =>
      have hi : ∀ x kk, i ≠ .rnd x kk := fun x kk he => hrnd hc x kk (he ▸ hd)
      rw [stepRand_of_ok hc hd hi, stepRand_of_ok hc hd hi]
  · rw [stepRand_of_faulted hc, stepRand_of_faulted hc]

/-- What Cxkk writes, whichever draw it uses; its use of the supply is no element of the state (10_state.md R47). -/
theorem State.rnd_writes (s : State) (x : Reg) (kk : Byte) :
    Writes s (s.useRand.setReg x (s.rand &&& kk)).advance
      (lastWrite [(.reg x, s.rand.toNat &&& kk.toNat), pcPlus s 2]) := by
  obtain ⟨hwrites, -⟩ := s.useRand.setReg_advance_effect x (s.rand &&& kk)
  intro e
  rw [hwrites e, State.useRand_observe, BitVec.toNat_and, pcPlus, pcPlus, State.useRand_pc]

/-- Settles O18: the supply after the draw is its rest, or the counter moved on. -/
theorem rndUsesSuppliedOrFreeDraw : Obligations.RndUsesSuppliedOrFreeDraw := by
  intro x kk s
  refine ⟨fun r rest hd => ?_, fun hd => ?_⟩
  · obtain ⟨huse, rfl⟩ := s.useRand_of_supplied hd
    exact ⟨_, rfl, s.rnd_writes x kk, by simp [huse]⟩
  · obtain ⟨huse, hrand⟩ := s.useRand_of_none hd
    exact ⟨_, rfl, hrand ▸ s.rnd_writes x kk, by simp [huse, hd]⟩

/-! ### A block stored, loaded back and fetched from (44_index_memory.md R234, R235) -/

section
variable {x : Reg} {s t : State}

theorem exec_ldMemVx_of_admitted (hadm : ∀ k : Reg, k ≤ x → InProgram s.params (s.i.toNat + k.val))
    (h : exec (.ldMemVx x) s = .next t) : t = (s.writeBytes s.i.toNat (s.regBlock x)).advance :=
  Host.Outcome.next.inj (h.symm.trans
    (exec_of_admitted_block rfl fun k hk => hadm ⟨k, by omega⟩ (Nat.le_of_lt_succ hk)))

theorem exec_ldVxMem_of_admitted (hadm : ∀ k : Reg, k ≤ x → InProgram s.params (s.i.toNat + k.val))
    (h : exec (.ldVxMem x) s = .next t) : t = (s.loadRegs x fun k => s.readByte (s.i.toNat + k)).advance :=
  Host.Outcome.next.inj (h.symm.trans
    (exec_of_admitted_block rfl fun k hk => hadm ⟨k, by omega⟩ (Nat.le_of_lt_succ hk)))

/-- The byte at I + k after V0..Vx are stored at I. -/
theorem State.writeBytes_regBlock_readByte (s : State) {x k : Reg} (hk : k ≤ x) (a : Nat) :
    (s.writeBytes a (s.regBlock x)).readByte (a + k.val) = s.reg k := by
  rw [State.writeBytes_readByte, dif_pos ⟨Nat.le_add_right _ _, by
    rw [State.regBlock_length, Nat.add_sub_cancel_left]; exact Nat.lt_succ_of_le hk⟩, State.regBlock_getElem]
  congr 1
  exact Fin.ext (Nat.add_sub_cancel_left _ _)

end

/-- Settles O25: the block read back is the block stored, and neither instruction writes I. -/
theorem storeThenLoadRestoresRegisters : Obligations.StoreThenLoadRestoresRegisters := by
  intro x s t u v hadm hstore hload
  obtain rfl := exec_ldMemVx_of_admitted hadm hstore
  obtain rfl := exec_ldVxMem_of_admitted (s := { (s.writeBytes s.i.toNat (s.regBlock x)).advance with v := v }) hadm hload
  refine ⟨fun k hk => ?_, fun k hk => ?_, ?_⟩
  · rw [State.V, State.observe_reg, State.advance_reg, State.loadRegs_reg, if_pos hk]
    exact congrArg BitVec.toNat (s.writeBytes_regBlock_readByte hk s.i.toNat)
  · rw [State.observe_reg, State.advance_reg, State.loadRegs_reg, if_neg (not_le.mpr hk)]
    rfl
  · rw [State.observe_i, State.advance_i, State.loadRegs_i]
    rfl

/-- Settles O26: two neighbouring bytes of the stored block are the word that a fetch there reads. -/
theorem storedBytesAreFetchedNext : Obligations.StoredBytesAreFetchedNext := by
  intro x k s t p hk hadm hp hstore
  have hnext : (k + 1).val = k.val + 1 := by rw [Fin.val_add_one_of_lt (hk.trans_le (Fin.le_last x))]
  have hle : k + 1 ≤ x := by rw [Fin.le_def, hnext]; exact hk
  obtain rfl := exec_ldMemVx_of_admitted hadm hstore
  refine ⟨(State.fetchFailure_eq_none_iff _).mpr ⟨?_, ?_⟩, ?_⟩
  · exact hp ▸ hadm k hk.le
  · have h1 := hadm (k + 1) hle
    rw [hnext, ← Nat.add_assoc, ← hp] at h1
    exact h1
  · have hhi := s.writeBytes_regBlock_readByte hk.le s.i.toNat
    have hlo := s.writeBytes_regBlock_readByte hle s.i.toNat
    rw [hnext, ← Nat.add_assoc, ← hp] at hlo
    rw [← hp] at hhi
    rw [State.fetchWord_toNat]
    exact congrArg₂ (fun hi lo : Byte => hi.toNat * 256 + lo.toNat) hhi hlo

end Sys2Proof.Machine
end

section
/-! PROOFS. Reset (70_reset_and_hazards.md R330, R332) and boot: the first STEP after RESET and LOAD_ROM (R334). -/

namespace Sys2Proof.Machine

/-- Settles O47: the font and zeroes in memory, and each other element as RESET writes it. -/
theorem resetLeavesResetValues : Obligations.ResetLeavesResetValues := by
  refine fun s => ⟨_, rfl, rfl, fun e => ?_⟩
  cases e
  case mem a => exact resetCore_readByte_toNat s a
  all_goals simp [resetCore, State.reset, State.reg, State.keyDown, FrameBuffer.cell, FaultCode.number]

section
variable {s : State} {bytes : List Byte}

theorem loadRom_of_fits (h : bytes.length ≤ s.params.programEnd - 0x200) :
    loadRom bytes s = s.writeBytes 0x200 bytes := if_neg (by simpa [romTooLarge] using h)

/-- The two bytes stored where PC is are what the next fetch reads. -/
theorem State.fetchDecode_writeBytes {a : Nat} {hi lo : Byte} {rest : List Byte} {i : Instr}
    (hf : s.fetchFailure = none) (ha : s.pc.toNat = a) (hword : decodeWord (wordOfBytes hi lo) = some i) :
    (s.writeBytes a (hi :: lo :: rest)).fetchDecode = .ok i := by
  refine (State.fetchDecode_eq_ok_iff _ i).mpr ⟨hf, ?_⟩
  subst ha
  rw [State.fetchWord, State.writeBytes_pc, State.writeBytes_readByte, State.writeBytes_readByte]
  simpa using hword

@[simp] theorem resetCore_params (s : State) : (resetCore s).params = s.params := rfl

theorem resetCore_pc_toNat (s : State) : (resetCore s).pc.toNat = 0x200 := rfl

/-- The reset vector can be fetched from, since PROGRAM_END is at least 0x202 (00_scope.md R8). -/
theorem resetCore_fetchFailure (hp : s.params.wf) : (resetCore s).fetchFailure = none := by
  obtain ⟨hend, -⟩ : (resetCore s).params.wf := hp
  rw [State.fetchFailure_eq_none_iff, resetCore_pc_toNat]
  omega

/-- After RESET and LOAD_ROM of a ROM that fits, the next fetch reads the ROM's first word (R334). -/
theorem loadRom_resetCore_fetches {hi lo : Byte} {rest : List Byte} {i : Instr} (hp : s.params.wf)
    (hfit : rest.length + 2 ≤ s.params.programEnd - 0x200) (hword : decodeWord (wordOfBytes hi lo) = some i) :
    (loadRom (hi :: lo :: rest) (resetCore s)).pc = 0x200 ∧
      (loadRom (hi :: lo :: rest) (resetCore s)).fault.code = .none ∧
      (loadRom (hi :: lo :: rest) (resetCore s)).fetchDecode = .ok i := by
  have hload : loadRom (hi :: lo :: rest) (resetCore s) = (resetCore s).writeBytes 0x200 (hi :: lo :: rest) :=
    loadRom_of_fits (by rw [resetCore_params]; exact hfit)
  rw [hload]
  exact ⟨rfl, rfl, State.fetchDecode_writeBytes (resetCore_fetchFailure hp) (resetCore_pc_toNat s) hword⟩

/-- The supply of draws is not fetched. -/
theorem step_with_draws_of_ok {i : Instr} {d : List Byte} (hc : s.fault.code = .none) (hd : s.fetchDecode = .ok i) :
    step { s with draws := d } = exec i { s with draws := d } :=
  step_of_ok hc ((State.fetchDecode_congr rfl rfl rfl).trans hd)

end

/-- Settles O56: RESET and LOAD_ROM put the first word where PC is. -/
theorem bootRunsFirstWordOfRom : Obligations.BootRunsFirstWordOfRom := by
  intro hi lo rand rest s i hp hfit hword
  obtain ⟨hpc, hc, hd⟩ := loadRom_resetCore_fetches hp hfit hword
  refine ⟨_, rfl, hpc, step_with_draws_of_ok hc hd, ?_⟩
  obtain ⟨t, ht⟩ := stepRand_total rand (loadRom (hi :: lo :: rest) (resetCore s))
  simp only [runSchedule, transact, ht]

end Sys2Proof.Machine
end

section
/-! PROOFS. What no run can observe: ST (10_state.md R38) and the stack entries at index SP and above (R41). -/

namespace Sys2Proof.Machine

/-! ### Runs from two related states -/

/-- What makes a relation hold along two runs of one schedule: related states fetch alike, a fault entry and the supply of
draws keep them related, and so do every instruction and every transaction other than STEP. -/
structure KeptByRuns (R : State → State → Prop) : Prop where
  sees : ∀ {s t}, R s t → t.pc = s.pc ∧ t.mem = s.mem ∧ t.params = s.params ∧ t.fault = s.fault ∧ t.draws = s.draws
  raise : ∀ {s t}, R s t → ∀ c n, R (s.raise c n) (t.raise c n)
  withDraws : ∀ {s t}, R s t → ∀ d, R (s.withDraws d) (t.withDraws d)
  exec : ∀ {s t s' i}, R s t → exec i s = .next s' → ∃ t', Machine.exec i t = .next t' ∧ R s' t'
  host : ∀ {s t s' tr}, R s t → (∀ r, tr ≠ .step r) → transact tr s = .next s' →
    ∃ t', transact tr t = .next t' ∧ R s' t'

section
variable {R : State → State → Prop} {s t s' : State}

theorem KeptByRuns.step (hR : KeptByRuns R) (h : R s t) (hs : step s = .next s') :
    ∃ t', step t = .next t' ∧ R s' t' := by
  obtain ⟨hpc, hmem, hparams, hfault, -⟩ := hR.sees h
  have hfetch := State.fetchDecode_congr hpc hmem hparams
  rcases step_cases hs with ⟨hf, rfl⟩ | ⟨hc, f, hd, rfl⟩ | ⟨hc, i, hd, he⟩
  · exact ⟨t, step_of_faulted (hfault ▸ hf), h⟩
  · exact ⟨_, step_of_error (hfault ▸ hc) (hfetch.trans hd), hR.raise h f.1 f.2⟩
  · rw [step_of_ok (hfault ▸ hc) (hfetch.trans hd)]
    exact hR.exec h he

theorem KeptByRuns.transact (hR : KeptByRuns R) {tr : Transaction} (h : R s t) (hs : transact tr s = .next s') :
    ∃ t', transact tr t = .next t' ∧ R s' t' := by
  cases tr
  case step r =>
    obtain ⟨-, -, -, -, hdraws⟩ := hR.sees h
    obtain ⟨u, hu, rfl⟩ := stepRand_eq_next_iff.mp hs
    obtain ⟨v, hv, huv⟩ := hR.step (hR.withDraws h [r]) hu
    exact ⟨_, stepRand_eq_next_iff.mpr ⟨v, hv, rfl⟩, hdraws ▸ hR.withDraws huv s.draws⟩
  all_goals exact hR.host h (by simp) hs

/-- Related states are carried by every schedule to related states, by induction on the schedule. -/
theorem KeptByRuns.runSchedule (hR : KeptByRuns R) {sched : List Transaction} (h : R s t)
    (hs : runSchedule sched s = .next s') : ∃ t', runSchedule sched t = .next t' ∧ R s' t' := by
  induction sched generalizing s t with
  | nil => cases hs; exact ⟨t, rfl, h⟩
  | cons tr rest ih =>
    obtain ⟨u, hu, hrest⟩ := runSchedule_cons_eq_next_iff.mp hs
    obtain ⟨v, hv, huv⟩ := hR.transact h hu
    obtain ⟨t', ht', hst'⟩ := ih huv hrest
    exact ⟨t', runSchedule_cons_eq_next_iff.mpr ⟨v, hv, ht'⟩, hst'⟩

end

/-! ### ST and the stack, to the instructions that use neither -/

/-- ST and the stack entries replaced. -/
def State.withStAndStack (s : State) (b : Byte) (k : Vector Word 16) : State := { s with st := b, stack := k }

theorem State.useRand_withStAndStack (s : State) (b : Byte) (k : Vector Word 16) :
    (s.withStAndStack b k).useRand = s.useRand.withStAndStack b k := by
  cases hd : s.draws with
  | nil => simp [State.useRand, State.withStAndStack, hd]
  | cons r rest => simp [State.useRand, State.withStAndStack, hd]

theorem guarded_withStAndStack (o : Option Failure) (s e : State) (b : Byte) (k : Vector Word 16) :
    (guarded o s e).withStAndStack b k = guarded o (s.withStAndStack b k) (e.withStAndStack b k) := by
  cases o <;> rfl

section
variable {i : Instr} {s t : State}

/-- An instruction other than CALL, RET and Fx18 commutes with replacing ST and the stack. -/
theorem exec_withStAndStack (b : Byte) (k : Vector Word 16) (hcall : ∀ nnn, i ≠ .call nnn) (hret : i ≠ .ret)
    (hst : ∀ x, i ≠ .ldStVx x) (h : exec i s = .next t) :
    exec i (s.withStAndStack b k) = .next (t.withStAndStack b k) := by
  cases i
  case call nnn => exact absurd rfl (hcall nnn)
  case ret => exact absurd rfl hret
  case ldStVx x => exact absurd rfl (hst x)
  case skp x | sknp x | ldF x =>
    have hreg : (s.withStAndStack b k).reg x = s.reg x := rfl
    simp only [exec, execSkp, execSknp, execLdF, hreg] at h ⊢
    cases hd : digit? (s.reg x) <;> rw [hd] at h <;> cases h <;> rfl
  case ldVxK x =>
    have hkeys : (s.withStAndStack b k).firstKeyDown = s.firstKeyDown := rfl
    rcases execLdVxK_cases h with ⟨d, hd, rfl⟩ | ⟨hd, rfl⟩
    · rw [exec, execLdVxK, hkeys, hd]; rfl
    · rw [exec, execLdVxK, hkeys, hd]
  case drw | ldB | ldMemVx | ldVxMem => cases h; rw [guarded_withStAndStack]; rfl
  case rnd => cases h; rw [exec, execRnd, State.useRand_withStAndStack]; rfl
  all_goals (cases h; rfl)

theorem exec_keeps_stack (hcall : ∀ nnn, i ≠ .call nnn) (hret : i ≠ .ret) (h : exec i s = .next t) :
    t.sp = s.sp ∧ t.stack = s.stack := by
  have hkeep (e : Element) (he : touches s i e = false) : t.observe e = s.observe e :=
    tableRowIsCompleteEffect i s t e h he
  refine ⟨Fin.ext (hkeep .sp ?_), Vector.ext fun j hj => BitVec.eq_of_toNat_eq (hkeep (.stack ⟨j, hj⟩) ?_)⟩
  all_goals
    cases i
    case call nnn => exact absurd rfl (hcall nnn)
    case ret => exact absurd rfl hret
    all_goals rfl

theorem exec_keeps_st (hst : ∀ x, i ≠ .ldStVx x) (h : exec i s = .next t) : t.st = s.st := by
  refine BitVec.eq_of_toNat_eq (tableRowIsCompleteEffect i s t .st h ?_)
  cases i
  case ldStVx x => exact absurd rfl (hst x)
  all_goals rfl

end

/-- LOAD_ROM sees memory and the settings alone, and writes memory alone (70_reset_and_hazards.md R333). -/
theorem loadRom_of_same_memory (bytes : List Byte) {s t : State} (hm : t.mem = s.mem) (hq : t.params = s.params) :
    loadRom bytes t = { t with mem := (loadRom bytes s).mem } := by
  have hmem : (loadRom bytes t).mem = (loadRom bytes s).mem := by
    have hsize : romTooLarge t bytes = romTooLarge s bytes := by rw [romTooLarge, romTooLarge, hq]
    cases hbig : romTooLarge s bytes <;> simp [loadRom, hsize, hbig, hm, hq]
  rw [loadRom_eq, hmem]

/-! ### ST (R38) -/

theorem sameButSt_iff {s t : State} : SameButSt s t ↔ ∃ b, t = s.setSt b :=
  ⟨fun h => ⟨t.st, h.symm⟩, fun ⟨_, h⟩ => h ▸ rfl⟩

/-- An instruction does to a state of another ST what it does to the state, but for ST. -/
theorem exec_setSt {i : Instr} {s t : State} (b : Byte) (h : exec i s = .next t) :
    ∃ b', exec i (s.setSt b) = .next (t.setSt b') := by
  cases i
  case ldStVx x => cases h; exact ⟨s.reg x, rfl⟩
  case call nnn =>
    rcases execCall_cases h with ⟨hs, rfl⟩ | ⟨hs, rfl⟩
    · exact ⟨b, exec_call_of_lt (s := s.setSt b) nnn hs⟩
    · exact ⟨b, exec_call_of_full (s := s.setSt b) nnn hs⟩
  case ret =>
    rcases execRet_cases h with ⟨hs, rfl⟩ | ⟨hs, rfl⟩
    · exact ⟨b, exec_ret_of_pos (s := s.setSt b) hs⟩
    · exact ⟨b, exec_ret_of_empty (s := s.setSt b) hs⟩
  all_goals
    obtain ⟨-, hstack⟩ := exec_keeps_stack (by simp) (by simp) h
    have hsame : t.withStAndStack b s.stack = t.setSt b := by rw [← hstack]; rfl
    exact ⟨b, hsame ▸ exec_withStAndStack b s.stack (by simp) (by simp) (by simp) h⟩

theorem sameButSt_keptByRuns : KeptByRuns SameButSt where
  sees h := by obtain ⟨b, rfl⟩ := sameButSt_iff.mp h; exact ⟨rfl, rfl, rfl, rfl, rfl⟩
  raise h _ _ := by obtain ⟨b, rfl⟩ := sameButSt_iff.mp h; rfl
  withDraws h _ := by obtain ⟨b, rfl⟩ := sameButSt_iff.mp h; rfl
  exec h hs := by
    obtain ⟨b, rfl⟩ := sameButSt_iff.mp h
    obtain ⟨b', hb'⟩ := exec_setSt b hs
    exact ⟨_, hb', sameButSt_iff.mpr ⟨b', rfl⟩⟩
  host := by
    intro s t s' tr h hstep hs
    obtain ⟨b, rfl⟩ := sameButSt_iff.mp h
    cases tr
    case step r => exact absurd rfl (hstep r)
    case loadRom bytes =>
      cases hs
      refine ⟨_, rfl, sameButSt_iff.mpr ⟨b, ?_⟩⟩
      rw [loadRom_eq s]
      exact loadRom_of_same_memory bytes rfl rfl
    all_goals (cases hs; exact ⟨_, rfl, rfl⟩)

/-- Settles O30: being the same but for ST is kept by every run. -/
theorem noRunDependsOnSoundTimer : Obligations.NoRunDependsOnSoundTimer :=
  fun _ _ _ _ h hs => sameButSt_keptByRuns.runSchedule h hs

/-! ### The stale stack entries (R41) -/

/-- The stack entries replaced. -/
def State.withStack (s : State) (k : Vector Word 16) : State := { s with stack := k }

/-- The live entries of a state's stack are those of `k`. -/
def State.LiveIn (s : State) (k : Vector Word 16) : Prop := ∀ j : Fin 16, j.val < s.sp.val → s.stack[j] = k[j]

theorem sameButStaleStack_iff {s t : State} : SameButStaleStack s t ↔ ∃ k, t = s.withStack k ∧ s.LiveIn k :=
  ⟨fun ⟨h, hlive⟩ => ⟨t.stack, h.symm, hlive⟩, fun ⟨_, h, hlive⟩ => h ▸ ⟨rfl, hlive⟩⟩

/-- An instruction does to a state of other stale entries what it does to the state, but for stale entries: CALL writes the
same entry to both, and RET reads a live one. -/
theorem exec_withStack {i : Instr} {s t : State} {k : Vector Word 16} (hlive : s.LiveIn k) (h : exec i s = .next t) :
    ∃ k', exec i (s.withStack k) = .next (t.withStack k') ∧ t.LiveIn k' := by
  cases i
  case ldStVx x => cases h; exact ⟨k, rfl, hlive⟩
  case call nnn =>
    rcases execCall_cases h with ⟨hs, rfl⟩ | ⟨hs, rfl⟩
    · refine ⟨k.set s.sp.val s.pc, exec_call_of_lt (s := s.withStack k) nnn hs, fun j hj => ?_⟩
      rw [State.setPc_stack, State.push_stack_get]
      simp only [Fin.getElem_fin, Vector.getElem_set, eq_comm (a := s.sp.val)]
      split_ifs with hj'
      · rfl
      · exact hlive j (lt_of_le_of_ne (Nat.le_of_lt_succ hj) hj')
    · exact ⟨k, exec_call_of_full (s := s.withStack k) nnn hs, hlive⟩
  case ret =>
    rcases execRet_cases h with ⟨hs, rfl⟩ | ⟨hs, rfl⟩
    · have htop : (s.withStack k).top hs = s.top hs :=
        (hlive ⟨s.sp.val - 1, by omega⟩ (Nat.sub_lt hs Nat.one_pos)).symm
      refine ⟨k, ?_, fun j hj => hlive j (hj.trans_le (Nat.sub_le _ _))⟩
      rw [exec_ret_of_pos (s := s.withStack k) hs, htop]
      rfl
    · exact ⟨k, exec_ret_of_empty (s := s.withStack k) hs, hlive⟩
  all_goals
    obtain ⟨hsp, hstack⟩ := exec_keeps_stack (by simp) (by simp) h
    have hst : t.st = s.st := exec_keeps_st (by simp) h
    have hsame : t.withStAndStack s.st k = t.withStack k := by rw [← hst]; rfl
    have hlive' : t.LiveIn k := by unfold State.LiveIn; rw [hsp, hstack]; exact hlive
    exact ⟨k, hsame ▸ exec_withStAndStack s.st k (by simp) (by simp) (by simp) h, hlive'⟩

theorem sameButStaleStack_keptByRuns : KeptByRuns SameButStaleStack where
  sees h := by obtain ⟨k, rfl, -⟩ := sameButStaleStack_iff.mp h; exact ⟨rfl, rfl, rfl, rfl, rfl⟩
  raise h _ _ := by obtain ⟨k, rfl, hlive⟩ := sameButStaleStack_iff.mp h; exact ⟨rfl, hlive⟩
  withDraws h _ := by obtain ⟨k, rfl, hlive⟩ := sameButStaleStack_iff.mp h; exact ⟨rfl, hlive⟩
  exec h hs := by
    obtain ⟨k, rfl, hlive⟩ := sameButStaleStack_iff.mp h
    obtain ⟨k', hk', hlive'⟩ := exec_withStack hlive hs
    exact ⟨_, hk', sameButStaleStack_iff.mpr ⟨k', rfl, hlive'⟩⟩
  host := by
    intro s t s' tr h hstep hs
    obtain ⟨k, rfl, hlive⟩ := sameButStaleStack_iff.mp h
    cases tr
    case step r => exact absurd rfl (hstep r)
    case reset => cases hs; exact ⟨_, rfl, rfl, fun _ _ => rfl⟩
    case loadRom bytes =>
      cases hs
      refine ⟨_, rfl, sameButStaleStack_iff.mpr ⟨k, ?_, by rw [loadRom_eq]; exact hlive⟩⟩
      rw [loadRom_eq s]
      exact loadRom_of_same_memory bytes rfl rfl
    all_goals (cases hs; exact ⟨_, rfl, rfl, hlive⟩)

/-- Settles O31: being the same but for stale entries is kept by every run. -/
theorem noRunDependsOnStaleStack : Obligations.NoRunDependsOnStaleStack :=
  fun _ _ _ _ h hs => sameButStaleStack_keptByRuns.runSchedule h hs

end Sys2Proof.Machine
end

section
/-! PROOFS. The ends of a run (60_exceptions.md R305): the search for the first end, and what STEPs do after it. -/

namespace Sys2Proof.Machine

/-! ### The condition of a normal end, as numbers -/

section
variable (s : State)

theorem State.observe_faultCode_eq_zero_iff : s.observe .faultCode = 0 ↔ s.fault.code = .none := by
  rw [State.observe_faultCode]
  cases s.fault.code <;> simp [FaultCode.number]

/-- The fetched word decodes to a jump to PC exactly when its number is 0x1000 + PC (R94). -/
theorem State.fetchWord_is_selfJump_iff : (∃ nnn, decodeWord s.fetchWord = some (.jp nnn) ∧ zextAddr nnn = s.pc) ↔
    s.pc.toNat < 0x1000 ∧ s.fetchWord.toNat = 0x1000 + s.pc.toNat := by
  have hnumber (nnn : Addr) : (encode (.jp nnn)).toNat = 0x1000 + nnn.toNat := wordNNN_toNat 0x1 nnn
  constructor
  · rintro ⟨nnn, hword, hpc⟩
    rw [← hpc, ← encodeInvertsDecode _ _ hword, hnumber, zextAddr_toNat]
    exact ⟨nnn.isLt, rfl⟩
  · rintro ⟨hlt, hword⟩
    have hpc : zextAddr (BitVec.ofNat 12 s.pc.toNat) = s.pc := BitVec.eq_of_toNat_eq (addr_ofNat_toNat hlt)
    have henc : encode (.jp (BitVec.ofNat 12 s.pc.toNat)) = s.fetchWord := by
      apply BitVec.eq_of_toNat_eq
      rw [hnumber, ← zextAddr_toNat, hpc, hword]
    exact ⟨_, henc ▸ decodeInvertsEncode _, hpc⟩

theorem State.endsNormally_iff_observe : s.endsNormally = true ↔ s.observe .faultCode = 0 ∧
    InProgram s.params s.pc.toNat ∧ InProgram s.params (s.pc.toNat + 1) ∧ s.pc.toNat < 0x1000 ∧
    s.observe (.mem s.pc.toNat) * 256 + s.observe (.mem (s.pc.toNat + 1)) = 0x1000 + s.pc.toNat := by
  simp only [State.endsNormally_iff, State.observe_faultCode_eq_zero_iff, State.fetchDecode_eq_ok_iff, and_assoc,
    exists_and_left, State.fetchWord_is_selfJump_iff, State.fetchFailure_eq_none_iff, State.fetchWord_toNat,
    State.observe_mem]

end

/-! ### An end after `k` transactions, as the search sees it -/

/-- Whether a STEP is the last of the first `k` transactions; `byStep` says so of the transaction before them. -/
def reachedByStep (byStep : Bool) (sched : List Transaction) : Nat → Bool
  | 0     => byStep
  | k + 1 => sched[k]?.any Transaction.isStep

/-- After `k` transactions the run is in a state `t` where the search stops. -/
def SearchEndsAt (byStep : Bool) (sched : List Transaction) (s : State) (kind : RunEnd) (k : Nat) (t : State) : Prop :=
  k ≤ sched.length ∧ runSchedule (sched.take k) s = .next t ∧ t.endHere (reachedByStep byStep sched k) = some kind

theorem reachedByStep_false_iff (sched : List Transaction) (k : Nat) :
    reachedByStep false sched k = true ↔ ∃ j rand, k = j + 1 ∧ sched[j]? = some (.step rand) := by
  cases k with
  | zero => simp [reachedByStep]
  | succ k =>
    have hstep (tr : Transaction) : tr.isStep = true ↔ ∃ rand, tr = .step rand := by
      cases tr <;> simp [Transaction.isStep]
    simp only [reachedByStep, Option.any_eq_true, hstep]
    constructor
    · rintro ⟨tr, htr, rand, rfl⟩; exact ⟨k, rand, rfl, htr⟩
    · rintro ⟨j, rand, hj, htr⟩; cases hj; exact ⟨_, htr, rand, rfl⟩

/-- The statement's words for an end are the search's own, from the start of the schedule. -/
theorem isEndAt_iff {sched : List Transaction} {s t : State} {kind : RunEnd} {k : Nat} :
    IsEndAt sched s kind k t ↔ SearchEndsAt false sched s kind k t := by
  cases kind
  case normal =>
    simp only [IsEndAt, SearchEndsAt, State.endHere_eq_normal_iff, reachedByStep_false_iff, State.endsNormally_iff_observe]
  case inError =>
    simp only [IsEndAt, SearchEndsAt, State.endHere_eq_inError_iff, ne_eq, State.observe_faultCode_eq_zero_iff]

section
variable {b : Bool} {sched rest : List Transaction} {tr : Transaction} {s u t : State} {kind : RunEnd} {k n : Nat}
  {e : EndOfRun}

theorem searchEndsAt_zero : SearchEndsAt b sched s kind 0 t ↔ t = s ∧ s.endHere b = some kind := by
  simp only [SearchEndsAt, Nat.zero_le, List.take_zero, runSchedule, reachedByStep, Host.Outcome.next.injEq, true_and]
  constructor
  · rintro ⟨rfl, h⟩; exact ⟨rfl, h⟩
  · rintro ⟨rfl, h⟩; exact ⟨rfl, h⟩

theorem runSchedule_cons_of_next (h : transact tr s = .next u) : runSchedule (tr :: rest) s = runSchedule rest u := by
  simp only [runSchedule, h]

theorem searchEndsAt_succ (h : transact tr s = .next u) :
    SearchEndsAt b (tr :: rest) s kind (k + 1) t ↔ SearchEndsAt tr.isStep rest u kind k t := by
  have hreached : reachedByStep b (tr :: rest) (k + 1) = reachedByStep tr.isStep rest k := by cases k <;> rfl
  simp only [SearchEndsAt, List.length_cons, Nat.add_le_add_iff_right, List.take_succ_cons, runSchedule_cons_of_next h,
    hreached]

/-- Where the state itself is an end, the first end is after no transaction. -/
theorem firstEndFrom_eq_some_iff_of_end (h : s.endHere b = some kind) : firstEndFrom b n sched s = some e ↔
    ∃ k, e.after = n + k ∧ SearchEndsAt b sched s e.kind k e.state ∧
      ∀ j < k, ∀ kind t, ¬ SearchEndsAt b sched s kind j t := by
  rw [firstEndFrom_of_end h, Option.some_inj]
  constructor
  · rintro rfl
    exact ⟨0, rfl, searchEndsAt_zero.mpr ⟨rfl, h⟩, fun j hj => absurd hj (Nat.not_lt_zero j)⟩
  · rintro ⟨k, hafter, hend, hfirst⟩
    obtain rfl : k = 0 := by
      by_contra hk
      exact hfirst 0 (Nat.pos_of_ne_zero hk) kind s (searchEndsAt_zero.mpr ⟨rfl, h⟩)
    obtain ⟨hstate, hkind⟩ := searchEndsAt_zero.mp hend
    obtain ⟨ekind, eafter, estate⟩ := e
    simp_all

end

/-- The search answers the first end, by induction on the schedule. -/
theorem firstEndFrom_eq_some_iff {sched : List Transaction} {b : Bool} {n : Nat} {s : State} {e : EndOfRun} :
    firstEndFrom b n sched s = some e ↔ ∃ k, e.after = n + k ∧ SearchEndsAt b sched s e.kind k e.state ∧
      ∀ j < k, ∀ kind t, ¬ SearchEndsAt b sched s kind j t := by
  induction sched generalizing b n s with
  | nil =>
    cases hend : s.endHere b with
    | some kind => exact firstEndFrom_eq_some_iff_of_end hend
    | none =>
      have hno (k : Nat) (h : SearchEndsAt b [] s e.kind k e.state) : False := by
        obtain rfl : k = 0 := Nat.le_zero.mp h.1
        obtain ⟨-, h⟩ := searchEndsAt_zero.mp h
        rw [hend] at h
        cases h
      rw [firstEndFrom_nil hend]
      exact ⟨fun h => (nomatch h), fun ⟨k, _, h, _⟩ => (hno k h).elim⟩
  | cons tr rest ih =>
    cases hend : s.endHere b with
    | some kind => exact firstEndFrom_eq_some_iff_of_end hend
    | none =>
      obtain ⟨u, hu⟩ := transact_total tr s
      have hno (kind : RunEnd) (t : State) : ¬ SearchEndsAt b (tr :: rest) s kind 0 t := by
        rw [searchEndsAt_zero, hend]
        simp
      rw [firstEndFrom_cons hend hu, ih]
      constructor
      · rintro ⟨k, hafter, hk, hfirst⟩
        refine ⟨k + 1, by omega, (searchEndsAt_succ hu).mpr hk, fun j hj kind t hjt => ?_⟩
        match j with
        | 0     => exact hno kind t hjt
        | j + 1 => exact hfirst j (by omega) kind t ((searchEndsAt_succ hu).mp hjt)
      · rintro ⟨k, hafter, hk, hfirst⟩
        match k with
        | 0     => exact (hno _ _ hk).elim
        | k + 1 =>
          exact ⟨k, by omega, (searchEndsAt_succ hu).mp hk, fun j hj kind t hjt =>
            hfirst (j + 1) (by omega) kind t ((searchEndsAt_succ hu).mpr hjt)⟩

/-! ### A run that has ended -/

/-- The state meets the condition of an end of either kind. -/
def State.Ended (s : State) : Prop := s.endsNormally = true ∨ s.endsInError = true

theorem State.ended_of_endHere {b : Bool} {s : State} {kind : RunEnd} (h : s.endHere b = some kind) : s.Ended := by
  cases kind
  case normal => exact .inl ((s.endHere_eq_normal_iff b).mp h).2
  case inError => exact .inr ((s.endsInError_iff).mpr ((s.endHere_eq_inError_iff b).mp h))

/-- Settles O58: a jump to PC leaves PC, and a faulted core does nothing. -/
theorem endedRunsStayEnded : Obligations.EndedRunsStayEnded := by
  rintro s rand (hnormal | herror)
  · obtain ⟨hc, nnn, hd, hpc⟩ := s.endsNormally_iff.mp hnormal
    have hjump : exec (.jp nnn) s = .next s := by rw [exec, execJp, hpc]; rfl
    exact ⟨(step_of_ok hc hd).trans hjump, (stepRand_of_ok hc hd (by simp)).trans hjump⟩
  · have hf := s.endsInError_iff.mp herror
    exact ⟨step_of_faulted hf, stepRand_of_faulted hf⟩

section
variable {s t : State}

/-- The condition sees FAULT and what the fetch sees. -/
theorem State.Ended.congr (h : s.Ended) (hf : t.fault = s.fault) (hp : t.pc = s.pc) (hm : t.mem = s.mem)
    (hq : t.params = s.params) : t.Ended := by
  unfold State.Ended State.endsNormally State.endsInError State.faulted
  rw [State.fetchDecode_congr hp hm hq, hf, hp]
  exact h

/-- Only RESET and LOAD_ROM lead out of an end. -/
theorem State.Ended.transact {tr : Transaction} (h : s.Ended) (hreset : tr ≠ .reset)
    (hload : ∀ bytes, tr ≠ .loadRom bytes) (ht : transact tr s = .next t) : t.Ended := by
  cases tr
  case reset => exact absurd rfl hreset
  case loadRom bytes => exact absurd rfl (hload bytes)
  case step r =>
    obtain rfl := Host.Outcome.next.inj ((endedRunsStayEnded s r h).2.symm.trans ht)
    exact h
  all_goals (cases ht; exact h.congr rfl rfl rfl rfl)

/-- From an end on, the STEPs of a schedule can be left out, by induction on the schedule. -/
theorem State.Ended.runSchedule_filter {later : List Transaction} (h : s.Ended)
    (hlater : ∀ tr ∈ later, tr ≠ .reset ∧ ∀ bytes, tr ≠ .loadRom bytes) :
    runSchedule later s = runSchedule (later.filter (!·.isStep)) s := by
  induction later generalizing s with
  | nil => rfl
  | cons tr rest ih =>
    obtain ⟨⟨hreset, hload⟩, hrest⟩ := List.forall_mem_cons.mp hlater
    obtain ⟨u, hu⟩ := transact_total tr s
    have hrun : Machine.runSchedule (tr :: rest) s = Machine.runSchedule (rest.filter (!·.isStep)) u :=
      (runSchedule_cons_of_next hu).trans (ih (h.transact hreset hload hu) hrest)
    by_cases hstep : tr.isStep = true
    · obtain ⟨r, rfl⟩ : ∃ r, tr = .step r := by cases tr <;> simp_all [Transaction.isStep]
      obtain rfl := Host.Outcome.next.inj ((endedRunsStayEnded s r h).2.symm.trans hu)
      rw [hrun, List.filter_cons_of_neg (by simp [hstep])]
    · rw [hrun, List.filter_cons_of_pos (by simp [hstep]), runSchedule_cons_of_next hu]

end

/-- Settles O57: the search answers the first end, and the state it answers has ended. -/
theorem runEndsAtFirstEnd : Obligations.RunEndsAtFirstEnd := by
  have hfirst (sched : List Transaction) (s : State) (e : EndOfRun) : firstEnd sched s = some e ↔
      IsEndAt sched s e.kind e.after e.state ∧ ∀ k, k < e.after → ∀ kind t, ¬ IsEndAt sched s kind k t := by
    simp only [firstEnd, firstEndFrom_eq_some_iff, Nat.zero_add, exists_eq_left', isEndAt_iff]
  refine ⟨hfirst, fun sched later s e he hlater => ?_⟩
  obtain ⟨-, -, hend⟩ := isEndAt_iff.mp ((hfirst sched s e).mp he).1
  exact (State.ended_of_endHere hend).runSchedule_filter hlater

end Sys2Proof.Machine
end
